-- ==== Sys2Proof/Word.lean ====
section
/-! DEFINITION. The values that cross the unit's interface: Word, beat, character, error status, response, request. -/

namespace Sys2Proof

/-- The one data type of the unit (00_scope.md R2, R10): an unsigned 32-bit value. -/
abbrev Word := BitVec 32

/-- One transfer on the request channel (10_state.md R36, 30_encoding.md R70): 128 bits, transferred whole (R53). -/
abbrev Beat := BitVec 128

/-- One character of a TOBINARY string, as its 8-bit ASCII code (48_binary_renderer.md R261). -/
abbrev Ascii := BitVec 8

/-- The error statuses (60_exceptions.md R300, codes 1 to 4). OK is no error and codes 5 to 7 are never produced. -/
inductive ErrorStatus where
  /-- "a BitIndex or pair of indices passed outside `[0, W)`" (R301). -/
  | indexOutOfRange
  /-- A run length of 0 or above W in COUNTRUNS, or a RUNMASK count above W (R302). -/
  | invalidRunLength
  /-- HIGHESTBIT of the zero word, or FINDUNIQUE of an empty sequence (R305). -/
  | emptyInput
  /-- The first beat's command word is not legal (R304). -/
  | illegalCommand
  deriving DecidableEq, Repr

/-- A response (10_state.md R37): `Ok(result, string)`, or `Err(status)` with no payload (60_exceptions.md R303). -/
inductive Response where
  | ok (result : Word) (string : List Ascii)
  | err (status : ErrorStatus)
  deriving DecidableEq, Repr, Inhabited

/-- The four response fields on the response channel (10_state.md R36, 30_encoding.md R81). -/
structure ResponseFields where
  status : BitVec 3
  result : Word
  strlen : BitVec 6
  str    : BitVec 256
  deriving DecidableEq, Repr, Inhabited

/-- The beats of one transaction (30_encoding.md R77, R78): the first beat, and the data beats of a FINDUNIQUE in
arrival order (none for every other command). -/
structure Request where
  first : Beat
  data  : List Beat
  deriving DecidableEq, Repr

end Sys2Proof
end

