-- ==== Sys2Proof/Config.lean ====
section
/-! DEFINITION. The parameters the spec fixes (00_scope.md R8) and the free values it leaves open. -/

namespace Sys2Proof.Config

/-- The word width (00_scope.md R2, R8), a design-time constant. -/
abbrev W : Nat := 32

/-- The longest FINDUNIQUE sequence (00_scope.md R8): the largest value operand B can hold. -/
abbrev nMax : Nat := 2 ^ 32 - 1

/-- The longest TOBINARY string (00_scope.md R8). -/
abbrev maxStringLength : Nat := 32

/-- Free value: a left shift by W or more, which has no meaning in the spec (00_scope.md R11, R350; 93 U1).
No rule reaches it. Log entry 7, DESIGN CHOICE. -/
opaque shlPastWidth : Word → Nat → Word

/-- Free value: a right shift by W or more (00_scope.md R11, R350; 93 U1). Log entry 7, DESIGN CHOICE. -/
opaque shrPastWidth : Word → Nat → Word

/-- Free value: the response fields on an edge where `rsp_valid = 0`, "unspecified" (10_state.md R36, R41; 93 S1).
The argument is the draw counter, so no two edges need show the same fields. Log entry 6, DESIGN CHOICE. -/
opaque unspecifiedFields : Nat → ResponseFields

/-- Free value: what a reset edge leaves in `pending`, "unspecified (not read in `IDLE`)" (10_state.md R41; 93 S4).
The argument is the draw counter. Log entry 5, DESIGN CHOICE. -/
opaque pendingAfterReset : Nat → Response

/-! LATENCY(op, beats) of 00_scope.md R8 is no constant here. It is OPEN and finite (R351), and the model takes it from
plain data in State: `Edge.latencyDone` says on which edge it has run out (log entry 3). The strategies of R8 cannot be
observed (R7) and have no parameter (93 U2 to U6). -/

end Sys2Proof.Config
end

