-- ==== Sys2Proof/Syntax.lean ====
section
/-! DEFINITION. The commands of the unit, one constructor per row of spec/opcode_table.json. -/

namespace Sys2Proof

/-- A command as its first beat names it (30_encoding.md R73): only the operands the command uses. A is a Word, B and C
are natural numbers (R72, R75). Ignored fields (R76) are no part of the command. -/
inductive Instr where
  | singlebit (index : Nat)                        -- R100
  | runmask (count : Nat)                          -- R103
  | rangemask (lowIndex highIndex : Nat)           -- R106
  | getbit (word : Word) (index : Nat)             -- R120
  | setbit (word : Word) (index : Nat)             -- R122
  | clearbit (word : Word) (index : Nat)           -- R124
  | togglebit (word : Word) (index : Nat)          -- R126
  | popcount (word : Word)                         -- R140
  | highestbit (word : Word)                       -- R160
  | rotl (word : Word) (count : Nat)               -- R180
  | rotr (word : Word) (count : Nat)               -- R182
  | countruns (word : Word) (runLength : Nat)      -- R200
  | swapbits (word : Word) (indexA indexB : Nat)   -- R220
  | removebit (word : Word) (index : Nat)          -- R223
  | findunique (length : Nat)                      -- R240: N, the number of data beats that follow
  | tobinary (word : Word)                         -- R260
  deriving DecidableEq, Repr

end Sys2Proof
end

