-- ==== Sys2Proof/WellFormed.lean ====
section
/-! DEFINITION. Which commands a beat can carry: every B and C operand fits its 32-bit field. -/

namespace Sys2Proof

/-- "Operands B and C enter the pseudocode as `Nat` values in `[0, 2^32)`" (00_scope.md R10; 30_encoding.md R72, R75). -/
def fitsField (n : Nat) : Bool := decide (n < 2 ^ 32)

/-- The command can be written in one first beat. A FINDUNIQUE has at most `N_MAX` elements (00_scope.md R8; 92 D18), and a
longer sequence "cannot be expressed" (93 S10). -/
def Instr.wellFormed : Instr → Bool
  | .singlebit index => fitsField index
  | .runmask count => fitsField count
  | .rangemask lowIndex highIndex => fitsField lowIndex && fitsField highIndex
  | .getbit _ index => fitsField index
  | .setbit _ index => fitsField index
  | .clearbit _ index => fitsField index
  | .togglebit _ index => fitsField index
  | .popcount _ => true
  | .highestbit _ => true
  | .rotl _ count => fitsField count
  | .rotr _ count => fitsField count
  | .countruns _ runLength => fitsField runLength
  | .swapbits _ indexA indexB => fitsField indexA && fitsField indexB
  | .removebit _ index => fitsField index
  | .findunique length => decide (length ≤ Config.nMax)
  | .tobinary _ => true

end Sys2Proof
end

