-- ==== Sys2Proof/Decode.lean ====
section
/-! DEFINITION. Reading a command from a first beat, total on every beat and rejecting by name, and the encoder after it. -/

namespace Sys2Proof

/-! ### The fields of a request beat (30_encoding.md R72, R75; 20_memory.md R51) -/

/-- `cmd = req_data[31:0]`. -/
def cmdOf (b : Beat) : Word := b.extractLsb' 0 32

/-- `A = req_data[63:32]`, all 32 bits unchanged. -/
def operandA (b : Beat) : Word := b.extractLsb' 32 32

/-- `B = req_data[95:64]`, read as a natural number: not sign-extended, scaled, shifted or truncated. -/
def operandB (b : Beat) : Nat := (b.extractLsb' 64 32).toNat

/-- `C = req_data[127:96]`, read as a natural number. -/
def operandC (b : Beat) : Nat := (b.extractLsb' 96 32).toNat

/-- A beat from its four fields, "written `C_B_A_cmd`, with C in the top 32 bits" (R72). -/
def beatOf (c b a cmd : Word) : Beat := c ++ b ++ a ++ cmd

/-! ### The command word (30_encoding.md R71, R74) -/

/-- `cmd[4:0]`. -/
def opcodeField (cmd : Word) : Nat := (cmd.extractLsb' 0 5).toNat

/-- `cmd[31:5]`. -/
def reservedField (cmd : Word) : BitVec 27 := cmd.extractLsb' 5 27

/-- `Legal(cmd) = (cmd[31:5] == 0) and (1 <= cmd[4:0] <= 16)` (R74). -/
def legal (cmd : Word) : Bool :=
  reservedField cmd == 0 && decide (1 ≤ opcodeField cmd) && decide (opcodeField cmd ≤ 16)

/-- The mnemonics of the opcode map (R73), in its order. -/
inductive Opcode where
  | singlebit | runmask | rangemask | getbit | setbit | clearbit | togglebit | popcount
  | highestbit | rotl | rotr | countruns | swapbits | removebit | findunique | tobinary
  deriving DecidableEq, Repr

/-- The opcode map read from left to right (R73). Opcodes 0x00 and 0x11 to 0x1F select nothing (R79). -/
def Opcode.ofCode : Nat → Option Opcode
  | 0x01 => some .singlebit
  | 0x02 => some .runmask
  | 0x03 => some .rangemask
  | 0x04 => some .getbit
  | 0x05 => some .setbit
  | 0x06 => some .clearbit
  | 0x07 => some .togglebit
  | 0x08 => some .popcount
  | 0x09 => some .highestbit
  | 0x0A => some .rotl
  | 0x0B => some .rotr
  | 0x0C => some .countruns
  | 0x0D => some .swapbits
  | 0x0E => some .removebit
  | 0x0F => some .findunique
  | 0x10 => some .tobinary
  | _ => none

/-- The operand columns of the opcode map (R73): which field each argument is read from. Fields marked ignored are
dropped (R76). -/
def Opcode.withOperands (op : Opcode) (a : Word) (b c : Nat) : Instr :=
  match op with
  | .singlebit => .singlebit b
  | .runmask => .runmask b
  | .rangemask => .rangemask b c
  | .getbit => .getbit a b
  | .setbit => .setbit a b
  | .clearbit => .clearbit a b
  | .togglebit => .togglebit a b
  | .popcount => .popcount a
  | .highestbit => .highestbit a
  | .rotl => .rotl a b
  | .rotr => .rotr a b
  | .countruns => .countruns a b
  | .swapbits => .swapbits a b c
  | .removebit => .removebit a b
  | .findunique => .findunique b
  | .tobinary => .tobinary a

/-- Why a command word is not legal (60_exceptions.md R304). Both are answered with `IllegalCommand`. -/
inductive Rejection where
  /-- `cmd[31:5] != 0`; reserved bits are never ignored (R74). -/
  | reservedBitsSet
  /-- `cmd[4:0]` is 0x00 or 0x11 to 0x1F (R74, R79). -/
  | opcodeUnassigned
  deriving DecidableEq, Repr

/-- The command a first beat carries (R73, R74, R75), or why it carries none. Total on every beat. -/
def decode (b : Beat) : Except Rejection Instr :=
  if reservedField (cmdOf b) ≠ 0 then .error .reservedBitsSet
  else
    match Opcode.ofCode (opcodeField (cmdOf b)) with
    | none => .error .opcodeUnassigned
    | some op => .ok (op.withOperands (operandA b) (operandB b) (operandC b))

/-- `Length(first)` (30_encoding.md R78): how many beats the transaction has, told from its first beat alone. -/
def transactionLength (first : Beat) : Nat :=
  if legal (cmdOf first) ∧ opcodeField (cmdOf first) = 0x0F then 1 + operandB first else 1

/-- The request has all its beats (30_encoding.md R70, R77, R78). -/
def Request.complete (r : Request) : Bool := decide (1 + r.data.length = transactionLength r.first)

/-- The next transaction of a recorded beat stream and the rest of the stream (30_encoding.md R78), or nothing when the
stream ends inside the transaction. -/
def takeRequest : List Beat → Option (Request × List Beat)
  | [] => none
  | first :: rest =>
    let n := transactionLength first - 1
    if n ≤ rest.length then some (⟨first, rest.take n⟩, rest.drop n) else none

/-! ### The encoder -/

/-- The opcode numbers (R73), read from right to left. -/
def Opcode.code : Opcode → Nat
  | .singlebit => 0x01
  | .runmask => 0x02
  | .rangemask => 0x03
  | .getbit => 0x04
  | .setbit => 0x05
  | .clearbit => 0x06
  | .togglebit => 0x07
  | .popcount => 0x08
  | .highestbit => 0x09
  | .rotl => 0x0A
  | .rotr => 0x0B
  | .countruns => 0x0C
  | .swapbits => 0x0D
  | .removebit => 0x0E
  | .findunique => 0x0F
  | .tobinary => 0x10

/-- A command word: the opcode in `cmd[4:0]`, zeros in `cmd[31:5]` (R71). -/
def Opcode.commandWord (op : Opcode) : Word := BitVec.ofNat 32 op.code

/-- A natural number in a B or C field (R72). -/
def fieldOf (n : Nat) : Word := BitVec.ofNat 32 n

/-- The first beat of a command. Ignored fields hold 0, "the recommended value" (R76). -/
def encode : Instr → Beat
  | .singlebit index => beatOf 0 (fieldOf index) 0 Opcode.singlebit.commandWord
  | .runmask count => beatOf 0 (fieldOf count) 0 Opcode.runmask.commandWord
  | .rangemask lowIndex highIndex => beatOf (fieldOf highIndex) (fieldOf lowIndex) 0 Opcode.rangemask.commandWord
  | .getbit word index => beatOf 0 (fieldOf index) word Opcode.getbit.commandWord
  | .setbit word index => beatOf 0 (fieldOf index) word Opcode.setbit.commandWord
  | .clearbit word index => beatOf 0 (fieldOf index) word Opcode.clearbit.commandWord
  | .togglebit word index => beatOf 0 (fieldOf index) word Opcode.togglebit.commandWord
  | .popcount word => beatOf 0 0 word Opcode.popcount.commandWord
  | .highestbit word => beatOf 0 0 word Opcode.highestbit.commandWord
  | .rotl word count => beatOf 0 (fieldOf count) word Opcode.rotl.commandWord
  | .rotr word count => beatOf 0 (fieldOf count) word Opcode.rotr.commandWord
  | .countruns word runLength => beatOf 0 (fieldOf runLength) word Opcode.countruns.commandWord
  | .swapbits word indexA indexB => beatOf (fieldOf indexB) (fieldOf indexA) word Opcode.swapbits.commandWord
  | .removebit word index => beatOf 0 (fieldOf index) word Opcode.removebit.commandWord
  | .findunique length => beatOf 0 (fieldOf length) 0 Opcode.findunique.commandWord
  | .tobinary word => beatOf 0 0 word Opcode.tobinary.commandWord

/-- A FINDUNIQUE data beat: the element in the A field (30_encoding.md R77); the fields that are ignored hold 0. -/
def dataBeat (element : Word) : Beat := beatOf 0 0 element 0

/-- The beats of `FINDUNIQUE [v0, ..., vN-1]`: the first beat `B = N`, then the data beats (30_encoding.md R83). There are
none for more than `N_MAX` elements, which no request can carry (00_scope.md R8; 93 S10). -/
def encodeFindUnique (elements : List Word) : Option Request :=
  if elements.length ≤ Config.nMax then some ⟨encode (.findunique elements.length), elements.map dataBeat⟩ else none

/-- The pseudo-instruction FULLMASK, which expands to RUNMASK 32 (30_encoding.md R85). -/
def fullMask : Instr := .runmask 32

/-! ### The opcode table's words -/

/-- The beat whose low `nbits` bits are `w`, every bit above them 0 (the table gives a row the 32 bits of `cmd`). -/
def tableBeat (nbits w : Nat) : Beat := BitVec.ofNat 128 (w % 2 ^ nbits)

/-- What this decoder reads from a word of spec/opcode_table.json. A beat is one parallel field with bit 0 its least
significant bit (20_memory.md R51), so the table's numbering is the beat's own. -/
def decodeTableWord (nbits w : Nat) : Option Instr := (decode (tableBeat nbits w)).toOption

end Sys2Proof
end

