-- ==== Sys2Proof/Machine/State.lean ====
section
/-! DEFINITION. The unit's state (10_state.md R37), the host's coming inputs, and the state after reset (R41). -/

namespace Sys2Proof.Machine

/-- Where the unit is in the current transaction (10_state.md R37). -/
inductive Phase where
  | idle | collect | busy | respond
  deriving DecidableEq, Repr

/-- The unit's input signals as one rising edge of `clk` samples them (10_state.md R36), and the one timing fact the spec
leaves open. -/
structure Edge where
  /-- Synchronous reset, active high. -/
  rst         : Bool
  /-- The host offers a request beat. -/
  reqValid    : Bool
  /-- The offered beat. -/
  reqData     : Beat
  /-- The host accepts the response. -/
  rspReady    : Bool
  /-- Not a signal: whether LATENCY has run out on this edge, so that a BUSY unit takes its internal step (R8, R38, R351;
  log entry 3). -/
  latencyDone : Bool
  deriving DecidableEq, Repr

/-- One delivered response with the request it answers (20_memory.md R57: "An observation of a run is the sequence of
(request, response) pairs"). The request is absent only in states no run reaches. -/
structure Exchange where
  request  : Option Request
  response : Response
  deriving DecidableEq, Repr

/-- The first four fields are the unit's whole state (10_state.md R37); R30 to R35 say that nothing else exists. The other
fields are the model's own (log entry 10): they hold the host's coming inputs and what the host knows, and no command
reads them. -/
structure State where
  phase     : Phase
  /-- FINDUNIQUE's running XOR, meaningful only in COLLECT. -/
  acc       : Word
  /-- FINDUNIQUE data beats still expected, at least 1 in COLLECT. -/
  remaining : Nat
  /-- The response computed but not yet delivered, meaningful in BUSY and RESPOND. -/
  pending   : Response
  /-- The input signals of the coming rising edges, first edge first (log entry 1). -/
  script    : List Edge
  /-- The beat the host has offered, that was not transferred, and that it must keep (R345; log entries 8 and 9). -/
  offered   : Option Beat
  /-- How many edges have passed; the free values are functions of it (log entries 5 and 6). -/
  draw      : Nat
  /-- The beats of the transaction in progress. -/
  txn       : Option Request
  /-- The responses delivered so far, oldest first. -/
  log       : List Exchange
  deriving DecidableEq, Repr

/-- What ends a reading of a response. No step and no command raises one. -/
inductive Fault where
  /-- Raised by `readResponse`, the host's reading of the response fields, on a status of 5, 6 or 7. "Never produced. A
  model that meets one has left this spec" (93 S9; 60_exceptions.md R300). Safe: nothing follows from it. -/
  | statusNeverProduced
  deriving DecidableEq, Repr

/-- Why a step has no meaning. -/
inductive Refusal where
  /-- Raised by `exec` for a command whose meaning is not written. Safe. No arm raises it now. -/
  | notModelled (mnemonic : String)
  /-- Raised by a step on an edge where the host has withdrawn or changed a beat it offered before that beat was
  transferred (70_reset_and_hazards.md R345). The spec gives no defined effect, and 93 S6 says `refuse`. Safe: the model
  stops where the hardware goes on with one of the offered beats. -/
  | requestHoldBroken
  deriving DecidableEq, Repr

/-- The unit right after reset (10_state.md R41, 70_reset_and_hazards.md R340): `phase = IDLE`, `acc = 0`,
`remaining = 0`. The spec leaves `pending` unspecified; `Ok(0, empty)` is a DESIGN CHOICE (log entry 4). The model's own
fields are empty (log entry 10). -/
def State.reset : State where
  phase     := .idle
  acc       := 0
  remaining := 0
  pending   := .ok 0 []
  script    := []
  offered   := none
  draw      := 0
  txn       := none
  log       := []

end Sys2Proof.Machine
end

