-- ==== Sys2Proof/Machine/Flags.lean ====
section
/-! DEFINITION. The outcome of a command as the response fields show it. The unit has no flags (10_state.md R32): the 3-bit
status of each response is the only outcome indication, so this file holds the status codes and the packing beside them. -/

namespace Sys2Proof.Machine

/-- The code of an error status (60_exceptions.md R300). -/
def errorCode : ErrorStatus → BitVec 3
  | .indexOutOfRange => 1
  | .invalidRunLength => 2
  | .emptyInput => 3
  | .illegalCommand => 4

/-- `rsp_status`: 0 is OK (60_exceptions.md R300, 30_encoding.md R81). -/
def statusCode : Response → BitVec 3
  | .ok _ _ => 0
  | .err e => errorCode e

/-- `rsp_str`: character k in bits [8k+7:8k], zero above the string (48_binary_renderer.md R261). -/
def packString : List Ascii → BitVec 256
  | [] => 0
  | c :: rest => (packString rest <<< 8) ||| c.setWidth 256

/-- The first `n` characters of `rsp_str`; "`rsp_strlen` alone gives the length" (48_binary_renderer.md R261). -/
def unpackString : Nat → BitVec 256 → List Ascii
  | 0, _ => []
  | n + 1, packed => packed.setWidth 8 :: unpackString n (packed >>> 8)

/-- The response fields of a response (30_encoding.md R81). The zeros of an error are fillers, not values
(60_exceptions.md R303). -/
def responseFields : Response → ResponseFields
  | .ok result string =>
    { status := 0, result := result, strlen := BitVec.ofNat 6 string.length, str := packString string }
  | .err e => { status := errorCode e, result := 0, strlen := 0, str := 0 }

/-- How a host reads the response fields: an error carries no value (60_exceptions.md R303, 30_encoding.md R84), and a
status of 5 to 7 is outside the spec (93 S9; log entry 16). -/
def readResponse (f : ResponseFields) : Except Fault Response :=
  match f.status.toNat with
  | 0 => .ok (.ok f.result (unpackString f.strlen.toNat f.str))
  | 1 => .ok (.err .indexOutOfRange)
  | 2 => .ok (.err .invalidRunLength)
  | 3 => .ok (.err .emptyInput)
  | 4 => .ok (.err .illegalCommand)
  | _ => .error .statusNeverProduced

/-- The value a response gives its host: none for an error (30_encoding.md R84). -/
def valueOf : Response → Option Word
  | .ok result _ => some result
  | .err _ => none

/-- `rsp_valid = 1` exactly in RESPOND (10_state.md R38). -/
def State.rspValid (s : State) : Bool := s.phase == .respond

/-- `req_ready`: 1 exactly in IDLE and COLLECT (10_state.md R38), and 0 while `rst = 1` (70_reset_and_hazards.md R340). -/
def State.reqReady (s : State) (rst : Bool) : Bool := !rst && (s.phase == .idle || s.phase == .collect)

/-- `rsp_status`, `rsp_result`, `rsp_strlen`, `rsp_str` (10_state.md R36): those of `pending` in RESPOND, otherwise
unspecified (93 S1; log entry 6). -/
def State.rspFields (s : State) : ResponseFields :=
  if s.rspValid then responseFields s.pending else Config.unspecifiedFields s.draw

end Sys2Proof.Machine
end

