-- ==== Sys2Proof/Machine/Operands.lean ====
section
/-! DEFINITION. Reading operands and building results: bits, index checks, zero extension, characters, the XOR fold. -/

namespace Sys2Proof.Machine

/-- `v[i]`, bit i of v, 0 the least significant (00_scope.md R9). -/
def bitAt (v : Word) (i : Nat) : Bool := v.getLsbD i

/-- A BitIndex operand is in range (00_scope.md R16, 60_exceptions.md R301). The whole operand is compared, never reduced,
clamped or wrapped first (30_encoding.md R75). -/
def indexInRange (index : Nat) : Bool := decide (index < Config.W)

/-- `zext_32(n)` (00_scope.md R13), for `n < 2^32`. -/
def zext32 (n : Nat) : Word := BitVec.ofNat 32 n

/-- The ASCII code of a binary digit, 0x30 or 0x31 (48_binary_renderer.md R260, R261). -/
def digit (b : Bool) : Ascii := if b then 0x31 else 0x30

/-- The positions of a Word, `0 .. W-1`. -/
def positions : List Nat := List.range Config.W

/-- `acc <- acc ^ seq[k]`, for every element in arrival order (47_unique_finder.md R240). -/
def xorFold (acc : Word) (elements : List Word) : Word := elements.foldl (fun a d => a ^^^ d) acc

end Sys2Proof.Machine
end

