-- ==== Sys2Proof/Machine/Ops.lean ====
section
/-! DEFINITION. The shared operations: shifts, ending a command with a result or an error, and the edges of the two channels
(10_state.md R38, 70_reset_and_hazards.md R340 to R348). -/

namespace Sys2Proof.Machine

/-! ### Shifts (00_scope.md R11, 70_reset_and_hazards.md R350) -/

/-- `shl(a, n) = (a * 2^n) mod 2^32` for `n <= W - 1`. A larger amount has no meaning (93 U1): a free value, log entry 7. -/
def shl (a : Word) (n : Nat) : Word := if n < Config.W then a <<< n else Config.shlPastWidth a n

/-- `shr(a, n) = floor(a / 2^n)` for `n <= W - 1`. A larger amount has no meaning (93 U1): a free value, log entry 7. -/
def shr (a : Word) (n : Nat) : Word := if n < Config.W then a >>> n else Config.shrPastWidth a n

/-! ### Ending a command (00_scope.md R13, 60_exceptions.md R308) -/

/-- `raise E`: the one shared way an error is taken. It is a response like any other and changes nothing else: no trap,
vector, saved state or mode (60_exceptions.md R300, R308; 10_state.md R38). -/
def raise (e : ErrorStatus) (s : State) : Host.Outcome State Fault Refusal :=
  .next { s with pending := .err e, phase := .busy }

/-- `pending <- Ok(result, string); phase <- BUSY` (10_state.md R38). -/
def succeed (result : Word) (string : List Ascii) (s : State) : Host.Outcome State Fault Refusal :=
  .next { s with pending := .ok result string, phase := .busy }

/-- `pending <- Exec(cmd, A, B, C); phase <- BUSY` (10_state.md R38). -/
def conclude (r : Response) (s : State) : Host.Outcome State Fault Refusal :=
  match r with
  | .ok result string => succeed result string s
  | .err e => raise e s

/-- A FINDUNIQUE with `B >= 1`: `acc <- 0; remaining <- B; phase <- COLLECT` (10_state.md R38). -/
def startCollect (n : Nat) (s : State) : Host.Outcome State Fault Refusal :=
  .next { s with acc := 0, remaining := n, phase := .collect }

/-! ### The request channel -/

/-- The host keeps a beat it still owes: while a beat is offered and not transferred, `req_valid` stays 1 and `req_data`
unchanged (70_reset_and_hazards.md R345). -/
def keepsHold (e : Edge) (s : State) : Bool :=
  match s.offered with
  | none => true
  | some b => e.reqValid && e.reqData == b

/-- A beat offered while `req_ready = 0` waits (70_reset_and_hazards.md R348): the host must keep it. -/
def noteOffer (e : Edge) (s : State) : State :=
  { s with offered := if e.reqValid then some e.reqData else none }

/-- The first beat of a transaction is transferred: it is owed no longer and opens the record of the transaction. -/
def beginTransaction (b : Beat) (s : State) : State := { s with offered := none, txn := some ⟨b, []⟩ }

/-- The record of the transaction with one more data beat. -/
def addData (r : Request) (b : Beat) : Request := { r with data := r.data ++ [b] }

/-- COLLECT, and a request beat is transferred (10_state.md R38; 30_encoding.md R77): its A field is folded in, its other
fields are ignored, and the last expected beat ends the command. -/
def collectBeat (b : Beat) (s : State) : State :=
  let acc := s.acc ^^^ operandA b
  let remaining := s.remaining - 1
  let s' := { s with
    acc := acc, remaining := remaining, offered := none, txn := s.txn.map (fun r => addData r b) }
  if remaining = 0 then { s' with pending := .ok acc [], phase := .busy } else s'

/-! ### The response channel -/

/-- BUSY: the internal step, taken when LATENCY has run out (10_state.md R38). -/
def internalStep (s : State) : State := { s with phase := .respond }

/-- RESPOND, and the response is transferred (10_state.md R38). The observation of the run grows by one pair
(20_memory.md R57). -/
def deliver (s : State) : State :=
  { s with phase := .idle, txn := none, log := s.log ++ [⟨s.txn, s.pending⟩] }

/-! ### Reset -/

/-- A rising edge with `rst = 1` (70_reset_and_hazards.md R340 to R342): the reset values of 10_state.md R41, and no trace
of an abandoned command. `pending` is unspecified there, so a free value (log entry 5). A beat offered before or during
reset is owed no longer (log entry 9). -/
def resetEdge (s : State) : State :=
  { s with
    phase := .idle, acc := 0, remaining := 0, pending := Config.pendingAfterReset s.draw, offered := none, txn := none }

/-! ### The input signals of the coming edge -/

/-- The edge after the host's inputs have run out (log entry 2): no reset, nothing new offered, a beat still owed is kept,
the response is not taken, and LATENCY has run out. -/
def quietEdge (s : State) : Edge :=
  { rst := false, reqValid := s.offered.isSome, reqData := s.offered.getD 0, rspReady := false, latencyDone := true }

/-- The input signals the coming rising edge samples (10_state.md R36; log entry 1). -/
def currentEdge (s : State) : Edge := s.script.headD (quietEdge s)

/-- The edge has been sampled: its inputs are used up, and the draw counter moves on (log entry 10). -/
def advance (s : State) : State := { s with script := s.script.tail, draw := s.draw + 1 }

/-- The edge on which a host offers one beat and does nothing else. -/
def offerEdge (b : Beat) : Edge :=
  { rst := false, reqValid := true, reqData := b, rspReady := false, latencyDone := false }

end Sys2Proof.Machine
end

