-- ==== Sys2Proof/Machine/HighestBit.lean ====
section
/-! DEFINITION. HighestBitLocator: HIGHESTBIT and its three strategies (43_highest_bit.md). -/

namespace Sys2Proof.Machine

/-- "the largest i in [0, W-1] with A[i] == 1" (R160), if there is one. -/
def highestBitIndex (word : Word) : Option Nat := positions.reverse.find? (bitAt word)

/-- Strategy A, the bit-scan upward from index 0, which keeps the last index that holds a 1 (R161). -/
def highestByScan (word : Word) : Option Nat :=
  positions.foldl (fun p i => if bitAt word i then some i else p) none

/-- Strategy B, the magnitude threshold (R162): `while A < t: t <- shr(t, 1); k <- k - 1`, for at most `rounds` rounds. -/
def highestByThreshold (word : Word) : (rounds : Nat) → (t : Word) → (k : Nat) → Nat
  | 0, _, k => k
  | rounds + 1, t, k => if word < t then highestByThreshold word rounds (shr t 1) (k - 1) else k

/-- Strategy C, the mask test (R163): `while (A & shl(1, k)) != shl(1, k): k <- k - 1`, downward from k. -/
def highestByMask (word : Word) : (k : Nat) → Nat
  | 0 => 0
  | k + 1 => if word &&& shl 1 (k + 1) ≠ shl 1 (k + 1) then highestByMask word k else k + 1

/-- R160. The unit never answers 0 for "no highest bit". -/
def highestbitResponse (word : Word) : Response :=
  match highestBitIndex word with
  | none => .err .emptyInput
  | some p => .ok (zext32 p) []

/-- HIGHESTBIT (R160). -/
def execHighestbit (word : Word) (s : State) : Host.Outcome State Fault Refusal := conclude (highestbitResponse word) s

end Sys2Proof.Machine
end

