-- ==== Sys2Proof/Machine/BinaryRenderer.lean ====
section
/-! DEFINITION. BinaryRenderer: TOBINARY and its two algorithms (48_binary_renderer.md). -/

namespace Sys2Proof.Machine

/-- The string of R260: the digits from the highest set bit down to bit 0, and a single zero for the zero word. -/
def binaryString (word : Word) : List Ascii :=
  match highestBitIndex word with
  | none => [digit false]
  | some p => (List.range (p + 1)).reverse.map (fun i => digit (bitAt word i))

/-- The first algorithm of R262 before its reversal: test the lowest bit and shift right until the rest is zero, for at
most `rounds` rounds. -/
def digitsFromLowest : (rounds : Nat) → (v : Word) → List Ascii
  | 0, _ => []
  | rounds + 1, v => if v = 0 then [] else digit (bitAt v 0) :: digitsFromLowest rounds (shr v 1)

/-- The first algorithm of R262: the collected digits, reversed. -/
def binaryStringByShifting (word : Word) : List Ascii := (digitsFromLowest Config.W word).reverse

/-- The second algorithm of R262: scan from the highest bit down, skipping leading zeros. -/
def binaryStringByScan (word : Word) : List Ascii :=
  (positions.reverse.map (fun i => digit (bitAt word i))).dropWhile (fun c => c == digit false)

/-- R260: the string is the answer, and the result field is 0. -/
def tobinaryResponse (word : Word) : Response := .ok 0 (binaryString word)

/-- TOBINARY (R260). -/
def execTobinary (word : Word) (s : State) : Host.Outcome State Fault Refusal := conclude (tobinaryResponse word) s

end Sys2Proof.Machine
end

