-- ==== Sys2Proof/Machine/MaskBuilder.lean ====
section
/-! DEFINITION. MaskBuilder: SINGLEBIT, RUNMASK, RANGEMASK (40_mask_builder.md), and the two helpers other families use. -/

namespace Sys2Proof.Machine

/-- `singleBitF(i) = shl(1, i)`, for `0 <= i <= W - 1` (R100). -/
def singleBitF (i : Nat) : Word := shl 1 i

/-- `runMaskF(n)`, for `0 <= n <= W` (R103): 0 for n = 0, otherwise `t | (t -w 1)` with `t = shl(1, n-1)`. -/
def runMaskF (n : Nat) : Word :=
  if n = 0 then 0
  else
    let t := shl 1 (n - 1)
    t ||| (t - 1)

/-- R100. -/
def singlebitResponse (index : Nat) : Response :=
  if indexInRange index then .ok (singleBitF index) [] else .err .indexOutOfRange

/-- R103. -/
def runmaskResponse (count : Nat) : Response :=
  if Config.W < count then .err .invalidRunLength else .ok (runMaskF count) []

/-- R106. -/
def rangemaskResponse (lowIndex highIndex : Nat) : Response :=
  if !indexInRange lowIndex || !indexInRange highIndex then .err .indexOutOfRange
  else if highIndex < lowIndex then .err .indexOutOfRange
  else .ok (runMaskF (highIndex + 1) &&& ~~~runMaskF lowIndex) []

/-- SINGLEBIT (R100). -/
def execSinglebit (index : Nat) (s : State) : Host.Outcome State Fault Refusal := conclude (singlebitResponse index) s

/-- RUNMASK (R103). -/
def execRunmask (count : Nat) (s : State) : Host.Outcome State Fault Refusal := conclude (runmaskResponse count) s

/-- RANGEMASK (R106). -/
def execRangemask (lowIndex highIndex : Nat) (s : State) : Host.Outcome State Fault Refusal :=
  conclude (rangemaskResponse lowIndex highIndex) s

end Sys2Proof.Machine
end

