-- ==== Sys2Proof/Machine/BitAccessor.lean ====
section
/-! DEFINITION. BitAccessor: GETBIT, SETBIT, CLEARBIT, TOGGLEBIT (41_bit_accessor.md). -/

namespace Sys2Proof.Machine

/-- R120: `shr(A, B) & 1`. -/
def getbitResponse (word : Word) (index : Nat) : Response :=
  if indexInRange index then .ok (shr word index &&& 1) [] else .err .indexOutOfRange

/-- R122: `A | singleBitF(B)`. -/
def setbitResponse (word : Word) (index : Nat) : Response :=
  if indexInRange index then .ok (word ||| singleBitF index) [] else .err .indexOutOfRange

/-- R124: `A & ~singleBitF(B)`. -/
def clearbitResponse (word : Word) (index : Nat) : Response :=
  if indexInRange index then .ok (word &&& ~~~singleBitF index) [] else .err .indexOutOfRange

/-- R126: `A ^ singleBitF(B)`. -/
def togglebitResponse (word : Word) (index : Nat) : Response :=
  if indexInRange index then .ok (word ^^^ singleBitF index) [] else .err .indexOutOfRange

/-- A CLEARBIT strategy, for an index in range (R125): `A ^ (A & m)`, the spec's example from general knowledge (93 K2). -/
def clearByXorOfAnd (word : Word) (index : Nat) : Word := word ^^^ (word &&& singleBitF index)

/-- A CLEARBIT strategy, for an index in range (R125): `(A | m) ^ m`, the spec's example from general knowledge (93 K2). -/
def clearBySetThenXor (word : Word) (index : Nat) : Word := (word ||| singleBitF index) ^^^ singleBitF index

/-- GETBIT (R120). -/
def execGetbit (word : Word) (index : Nat) (s : State) : Host.Outcome State Fault Refusal :=
  conclude (getbitResponse word index) s

/-- SETBIT (R122). -/
def execSetbit (word : Word) (index : Nat) (s : State) : Host.Outcome State Fault Refusal :=
  conclude (setbitResponse word index) s

/-- CLEARBIT (R124). -/
def execClearbit (word : Word) (index : Nat) (s : State) : Host.Outcome State Fault Refusal :=
  conclude (clearbitResponse word index) s

/-- TOGGLEBIT (R126). -/
def execTogglebit (word : Word) (index : Nat) (s : State) : Host.Outcome State Fault Refusal :=
  conclude (togglebitResponse word index) s

end Sys2Proof.Machine
end

