-- ==== Sys2Proof/Machine/BitRearranger.lean ====
section
/-! DEFINITION. BitRearranger: SWAPBITS, REMOVEBIT (46_bit_rearranger.md). -/

namespace Sys2Proof.Machine

/-- The value of R220 for indices in range. -/
def swapBits (word : Word) (i j : Nat) : Word :=
  if i = j then word
  else
    let x := (shr word i &&& 1) ^^^ (shr word j &&& 1)
    let swapper := if x = 1 then singleBitF i ||| singleBitF j else 0
    word ^^^ swapper

/-- The value of R223 for an index in range. Nothing stands above bit 31, so no shift by W is made (90 C3). -/
def removeBit (word : Word) (i : Nat) : Word :=
  let low := word &&& runMaskF i
  let high := if i = Config.W - 1 then 0 else shl (shr word (i + 1)) i
  low ||| high

/-- R220. The range check comes before the `i = j` shortcut (60_exceptions.md R307). -/
def swapbitsResponse (word : Word) (indexA indexB : Nat) : Response :=
  if !indexInRange indexA || !indexInRange indexB then .err .indexOutOfRange
  else .ok (swapBits word indexA indexB) []

/-- R223. -/
def removebitResponse (word : Word) (index : Nat) : Response :=
  if indexInRange index then .ok (removeBit word index) [] else .err .indexOutOfRange

/-- SWAPBITS (R220). -/
def execSwapbits (word : Word) (indexA indexB : Nat) (s : State) : Host.Outcome State Fault Refusal :=
  conclude (swapbitsResponse word indexA indexB) s

/-- REMOVEBIT (R223). -/
def execRemovebit (word : Word) (index : Nat) (s : State) : Host.Outcome State Fault Refusal :=
  conclude (removebitResponse word index) s

end Sys2Proof.Machine
end

