-- ==== Sys2Proof/Machine/Popcount.lean ====
section
/-! DEFINITION. BitCounter: POPCOUNT and its two strategies (42_popcount.md). -/

namespace Sys2Proof.Machine

/-- "number of i in [0, W-1] with A[i] == 1" (R140). -/
def countOnes (word : Word) : Nat := positions.countP (bitAt word)

/-- Strategy A, the bit-scan (R141): what `rounds` rounds of test-and-shift add to `n`. -/
def bitScanCount : (rounds : Nat) → (n : Nat) → (v : Word) → Nat
  | 0, n, _ => n
  | rounds + 1, n, v => bitScanCount rounds (n + (v &&& 1).toNat) (shr v 1)

/-- Strategy B, Kernighan's method (R142): `while v != 0: v <- v & (v -w 1); n <- n + 1`, for at most `rounds` rounds. -/
def kernighanCount : (rounds : Nat) → (n : Nat) → (v : Word) → Nat
  | 0, n, _ => n
  | rounds + 1, n, v => if v = 0 then n else kernighanCount rounds (n + 1) (v &&& (v - 1))

/-- R140. Every Word is a valid input. -/
def popcountResponse (word : Word) : Response := .ok (zext32 (countOnes word)) []

/-- POPCOUNT (R140). -/
def execPopcount (word : Word) (s : State) : Host.Outcome State Fault Refusal := conclude (popcountResponse word) s

end Sys2Proof.Machine
end

