-- ==== Sys2Proof/Machine/Rotate.lean ====
section
/-! DEFINITION. CircularShifter: ROTL, ROTR (44_rotate.md). -/

namespace Sys2Proof.Machine

/-- The value of R180: the count is taken modulo W, and a count of 0 modulo W is a case of its own. -/
def rotateLeft (word : Word) (count : Nat) : Word :=
  let k := count % Config.W
  if k = 0 then word else shl word k ||| shr word (Config.W - k)

/-- The value of R182. -/
def rotateRight (word : Word) (count : Nat) : Word :=
  let k := count % Config.W
  if k = 0 then word else shr word k ||| shl word (Config.W - k)

/-- R180. Every count is accepted. -/
def rotlResponse (word : Word) (count : Nat) : Response := .ok (rotateLeft word count) []

/-- R182. Every count is accepted. -/
def rotrResponse (word : Word) (count : Nat) : Response := .ok (rotateRight word count) []

/-- ROTL (R180). -/
def execRotl (word : Word) (count : Nat) (s : State) : Host.Outcome State Fault Refusal :=
  conclude (rotlResponse word count) s

/-- ROTR (R182). -/
def execRotr (word : Word) (count : Nat) (s : State) : Host.Outcome State Fault Refusal :=
  conclude (rotrResponse word count) s

end Sys2Proof.Machine
end

