-- ==== Sys2Proof/Machine/RunMatcher.lean ====
section
/-! DEFINITION. RunMatcher: COUNTRUNS (45_run_matcher.md). -/

namespace Sys2Proof.Machine

/-- The window of R200 at position p: `(shr(A, p) & pattern) == pattern`. -/
def windowMatches (word pattern : Word) (p : Nat) : Bool := shr word p &&& pattern == pattern

/-- The same window with the pattern shifted left instead (R201): `(A & shl(pattern, p)) == shl(pattern, p)`. -/
def windowMatchesPattern (word pattern : Word) (p : Nat) : Bool := word &&& shl pattern p == shl pattern p

/-- The count of R200, over `p in 0 .. W - L`, for `1 <= L <= W`. Windows may overlap and never wrap. -/
def countWindows (word : Word) (runLength : Nat) : Nat :=
  (List.range (Config.W - runLength + 1)).countP (windowMatches word (runMaskF runLength))

/-- The count by R201's placement of the pattern. -/
def countWindowsByPattern (word : Word) (runLength : Nat) : Nat :=
  (List.range (Config.W - runLength + 1)).countP (windowMatchesPattern word (runMaskF runLength))

/-- R200. -/
def countrunsResponse (word : Word) (runLength : Nat) : Response :=
  if runLength = 0 ∨ Config.W < runLength then .err .invalidRunLength
  else .ok (zext32 (countWindows word runLength)) []

/-- COUNTRUNS (R200). -/
def execCountruns (word : Word) (runLength : Nat) (s : State) : Host.Outcome State Fault Refusal :=
  conclude (countrunsResponse word runLength) s

end Sys2Proof.Machine
end

