-- ==== Sys2Proof/Machine/UniqueFinder.lean ====
section
/-! DEFINITION. UniqueFinder: FINDUNIQUE (47_unique_finder.md). Its data beats are taken by `collectBeat` (Ops). -/

namespace Sys2Proof.Machine

/-- R240 at the level of a whole transaction: the XOR of the sequence. The precondition on multiplicities is the caller's
and is not checked (R241). -/
def finduniqueResponse (length : Nat) (elements : List Word) : Response :=
  if length = 0 then .err .emptyInput else .ok (xorFold 0 elements) []

/-- FINDUNIQUE's first beat (R240; 10_state.md R38): an empty sequence ends the command at once, any other opens the
collection of its data beats. -/
def execFindunique (length : Nat) (s : State) : Host.Outcome State Fault Refusal :=
  if length = 0 then raise .emptyInput s else startCollect length s

end Sys2Proof.Machine
end

