-- ==== Sys2Proof/Machine/Dispatch.lean ====
section
/-! DEFINITION. One arm per command: what the transfer of its first beat does to an idle unit (10_state.md R38). -/

namespace Sys2Proof.Machine

def exec (i : Instr) (s : State) : Host.Outcome State Fault Refusal :=
  match i with
  | .singlebit index => Sys2Proof.Machine.execSinglebit index s
  | .runmask count => Sys2Proof.Machine.execRunmask count s
  | .rangemask lowIndex highIndex => Sys2Proof.Machine.execRangemask lowIndex highIndex s
  | .getbit word index => Sys2Proof.Machine.execGetbit word index s
  | .setbit word index => Sys2Proof.Machine.execSetbit word index s
  | .clearbit word index => Sys2Proof.Machine.execClearbit word index s
  | .togglebit word index => Sys2Proof.Machine.execTogglebit word index s
  | .popcount word => Sys2Proof.Machine.execPopcount word s
  | .highestbit word => Sys2Proof.Machine.execHighestbit word s
  | .rotl word count => Sys2Proof.Machine.execRotl word count s
  | .rotr word count => Sys2Proof.Machine.execRotr word count s
  | .countruns word runLength => Sys2Proof.Machine.execCountruns word runLength s
  | .swapbits word indexA indexB => Sys2Proof.Machine.execSwapbits word indexA indexB s
  | .removebit word index => Sys2Proof.Machine.execRemovebit word index s
  | .findunique length => Sys2Proof.Machine.execFindunique length s
  | .tobinary word => Sys2Proof.Machine.execTobinary word s

end Sys2Proof.Machine
end

