-- ==== Sys2Proof/Machine/Clock.lean ====
section
/-! DEFINITION. One rising edge of `clk` (10_state.md R38, 70_reset_and_hazards.md R340 to R348). -/

namespace Sys2Proof.Machine

/-- IDLE, and a request beat is transferred (10_state.md R38): the command's meaning, or `IllegalCommand` before anything
else is looked at (60_exceptions.md R304, R307). -/
def acceptCommand (b : Beat) (s : State) : Host.Outcome State Fault Refusal :=
  match decode b with
  | .ok i => exec i (beginTransaction b s)
  | .error _ => raise .illegalCommand (beginTransaction b s)

/-- What an edge with `rst = 0` does in each phase (10_state.md R38). "A state it does not list takes no step": the unit
then stays as it is. While `req_ready = 0` an offered beat waits (70_reset_and_hazards.md R348). -/
def channelEdge (e : Edge) (s : State) : Host.Outcome State Fault Refusal :=
  match s.phase with
  | .idle => if e.reqValid then acceptCommand e.reqData s else .next s
  | .collect => if e.reqValid then .next (collectBeat e.reqData s) else .next s
  | .busy => .next (noteOffer e (if e.latencyDone then internalStep s else s))
  | .respond => .next (noteOffer e (if e.rspReady then deliver s else s))

/-- One rising edge: reset wins over every transfer (70_reset_and_hazards.md R341), and an edge on which the host breaks
its hold has no meaning (R345; 93 S6). -/
def clockEdge (e : Edge) (s : State) : Host.Outcome State Fault Refusal :=
  if e.rst then .next (resetEdge s)
  else if keepsHold e s then channelEdge e s
  else .refused .requestHoldBroken

/-- The host offers the table's beat on the very next edge to a unit that waits for a command and owes the host nothing
(log entry 11). From reset only `script` changes. -/
def offerNext (b : Beat) (s : State) : State :=
  { s with phase := .idle, offered := none, txn := none, script := offerEdge b :: s.script }

end Sys2Proof.Machine
end

