-- ==== Sys2Proof/Machine/Step.lean ====
section
/-! DEFINITION. One step: the coming rising edge of `clk`. -/

namespace Sys2Proof.Machine

/-- One rising edge of `clk` with the input signals the state holds for it (10_state.md R36, R38; log entry 1). -/
def step (s : State) : Host.Outcome State Fault Refusal := clockEdge (currentEdge s) (advance s)

/-- The state in which the next step transfers and runs the beat whose low `nbits` bits are `w` (log entry 11): the unit
fetches nothing (10_state.md R31), a command arrives on the request channel. -/
def State.withFetchWord (s : State) (nbits w : Nat) : State := offerNext (tableBeat nbits w) s

end Sys2Proof.Machine
end

