-- ==== Sys2Proof/Machine/Transaction.lean ====
section
/-! DEFINITION. The transaction-level function `Exec : Request -> Response` (00_scope.md R14). -/

namespace Sys2Proof.Machine

/-- The response of a command: a pure function of its operands and, for FINDUNIQUE, its sequence (00_scope.md R14). -/
def commandResponse (i : Instr) (elements : List Word) : Response :=
  match i with
  | .singlebit index => singlebitResponse index
  | .runmask count => runmaskResponse count
  | .rangemask lowIndex highIndex => rangemaskResponse lowIndex highIndex
  | .getbit word index => getbitResponse word index
  | .setbit word index => setbitResponse word index
  | .clearbit word index => clearbitResponse word index
  | .togglebit word index => togglebitResponse word index
  | .popcount word => popcountResponse word
  | .highestbit word => highestbitResponse word
  | .rotl word count => rotlResponse word count
  | .rotr word count => rotrResponse word count
  | .countruns word runLength => countrunsResponse word runLength
  | .swapbits word indexA indexB => swapbitsResponse word indexA indexB
  | .removebit word index => removebitResponse word index
  | .findunique length => finduniqueResponse length elements
  | .tobinary word => tobinaryResponse word

/-- `Exec` (00_scope.md R14): the command word of the first beat decides, and an illegal one is answered with
`IllegalCommand` (60_exceptions.md R304). -/
def execRequest (r : Request) : Response :=
  match decode r.first with
  | .ok i => commandResponse i (r.data.map operandA)
  | .error _ => .err .illegalCommand

end Sys2Proof.Machine
end

