-- ==== Sys2Proof/Machine/Assembler.lean ====
section
/-! DEFINITION. The host's notation for commands and programs (30_encoding.md R83 to R85); notation only (92 D30). -/

namespace Sys2Proof.Machine

/-- An operand of a host line: a literal, or a name bound by an earlier line, given as that line's number (log entry 17). -/
inductive HostOperand where
  | literal (value : Nat)
  | boundBy (line : Nat)
  deriving DecidableEq, Repr

/-- One line `name <- COMMAND operands`. Its name is its number in the program. -/
structure HostLine where
  command  : Opcode
  operands : List HostOperand
  deriving DecidableEq, Repr

/-- The command of operands "listed in the source's argument order" (R83); nothing for a wrong number of operands. The
operands of FINDUNIQUE are its sequence. -/
def commandOf (op : Opcode) (operands : List Nat) : Option Instr :=
  match op, operands with
  | .singlebit, [index] => some (.singlebit index)
  | .runmask, [count] => some (.runmask count)
  | .rangemask, [low, high] => some (.rangemask low high)
  | .getbit, [word, index] => some (.getbit (zext32 word) index)
  | .setbit, [word, index] => some (.setbit (zext32 word) index)
  | .clearbit, [word, index] => some (.clearbit (zext32 word) index)
  | .togglebit, [word, index] => some (.togglebit (zext32 word) index)
  | .popcount, [word] => some (.popcount (zext32 word))
  | .highestbit, [word] => some (.highestbit (zext32 word))
  | .rotl, [word, count] => some (.rotl (zext32 word) count)
  | .rotr, [word, count] => some (.rotr (zext32 word) count)
  | .countruns, [word, runLength] => some (.countruns (zext32 word) runLength)
  | .swapbits, [word, indexA, indexB] => some (.swapbits (zext32 word) indexA indexB)
  | .removebit, [word, index] => some (.removebit (zext32 word) index)
  | .findunique, elements => some (.findunique elements.length)
  | .tobinary, [word] => some (.tobinary (zext32 word))
  | _, _ => none

/-- The beats of a line whose operands are known (R83). No beats are sent where an operand does not fit its 32-bit field
or a FINDUNIQUE has more than `N_MAX` elements (00_scope.md R8; 93 S10; log entry 17). -/
def assemble (op : Opcode) (operands : List Nat) : Option Request :=
  if operands.all fitsField then
    match commandOf op operands with
    | some i =>
      if i.wellFormed then
        some ⟨encode i, if op = .findunique then operands.map (fun v => dataBeat (zext32 v)) else []⟩
      else none
    | none => none
  else none

/-- The value of an operand. "An error response binds no value": a name bound to an error status, or to no response, has
none (R84). -/
def operandValue (bindings : List (Option Response)) : HostOperand → Option Nat
  | .literal value => some value
  | .boundBy line =>
    match bindings[line]? with
    | some (some r) => (valueOf r).map BitVec.toNat
    | _ => none

/-- The beats of a line, or none for a host error, which "sends no beat" (R84). -/
def lineRequest (bindings : List (Option Response)) (l : HostLine) : Option Request :=
  match l.operands.mapM (operandValue bindings) with
  | some operands => assemble l.command operands
  | none => none

/-- A program's lines in order, each waiting for the response of the one before (R83; 70_reset_and_hazards.md R348). The
result is one entry a line: the response, or none for a host error. -/
def runLines (bindings : List (Option Response)) : List HostLine → List (Option Response)
  | [] => bindings
  | l :: rest => runLines (bindings ++ [(lineRequest bindings l).map execRequest]) rest

end Sys2Proof.Machine
end

