-- ==== Sys2Proof/Safety.lean ====
section
/-! DEFINITION. What the claims speak of: the transaction invariant, the host's duties, the statuses a command may end with. -/

namespace Sys2Proof.Machine

/-- The command answers response `r` whatever the unit's state, and changes nothing else (00_scope.md R14; 10_state.md R38). -/
def Answers (i : Instr) (r : Response) : Prop :=
  ∀ s : State, exec i s = .next { s with pending := r, phase := .busy }

/-- The statuses a legal command may end with beside OK (60_exceptions.md R306). -/
def possibleErrors : Instr → List ErrorStatus
  | .singlebit _ => [.indexOutOfRange]
  | .runmask _ => [.invalidRunLength]
  | .rangemask _ _ => [.indexOutOfRange]
  | .getbit _ _ => [.indexOutOfRange]
  | .setbit _ _ => [.indexOutOfRange]
  | .clearbit _ _ => [.indexOutOfRange]
  | .togglebit _ _ => [.indexOutOfRange]
  | .popcount _ => []
  | .highestbit _ => [.emptyInput]
  | .rotl _ _ => []
  | .rotr _ _ => []
  | .countruns _ _ => [.invalidRunLength]
  | .swapbits _ _ _ => [.indexOutOfRange]
  | .removebit _ _ => [.indexOutOfRange]
  | .findunique _ => [.emptyInput]
  | .tobinary _ => []

/-- An exchange that answers a whole request with `Exec` of it (10_state.md R39; 00_scope.md R14). -/
def Exchange.correct (x : Exchange) : Prop :=
  ∃ r : Request, x.request = some r ∧ r.complete = true ∧ x.response = execRequest r

/-- The transaction in progress is what the phase says (10_state.md R37, R38): nothing in IDLE; in COLLECT a FINDUNIQUE with
`acc` the XOR of the data beats so far and `remaining` the number still expected; in BUSY and RESPOND a whole request with
its response pending. -/
def TransactionOk (s : State) : Prop :=
  match s.phase with
  | .idle => s.txn = none
  | .collect =>
    ∃ (r : Request) (n : Nat),
      s.txn = some r ∧ decode r.first = .ok (.findunique n) ∧ r.data.length < n ∧
        s.acc = xorFold 0 (r.data.map operandA) ∧ s.remaining = n - r.data.length ∧ s.offered = none
  | .busy | .respond =>
    ∃ r : Request, s.txn = some r ∧ r.complete = true ∧ s.pending = execRequest r

/-- The invariant of the machine (10_state.md R37 to R39): the transaction in progress is right, `remaining` is 0 outside
COLLECT and below 2^32, and every delivered response answered its own request. -/
structure Inv (s : State) : Prop where
  transaction   : TransactionOk s
  remainingZero : s.phase ≠ .collect → s.remaining = 0
  remainingFits : s.remaining < 2 ^ 32
  delivered     : ∀ x ∈ s.log, Exchange.correct x

/-- Two states that no host can tell apart from here on (10_state.md R40; 20_memory.md R57): the same phase, coming inputs
and owed beat, and the same value of each field in the phases where R37 calls it meaningful. -/
structure Alike (s t : State) : Prop where
  phase     : s.phase = t.phase
  script    : s.script = t.script
  offered   : s.offered = t.offered
  acc       : s.phase = .collect → s.acc = t.acc
  remaining : s.phase = .collect → s.remaining = t.remaining
  pending   : s.phase = .busy ∨ s.phase = .respond → s.pending = t.pending

/-- `k` rising edges, stopping at the first edge that has no meaning. -/
def runEdges : (k : Nat) → State → Host.Outcome State Fault Refusal
  | 0, s => .next s
  | k + 1, s =>
    match step s with
    | .next t => runEdges k t
    | .fault f => .fault f
    | .refused why => .refused why

/-- A host's inputs for one whole transaction (70_reset_and_hazards.md R347, R351): every beat on an edge of its own, then
`wait` edges on which LATENCY has not run out, the edge on which it has, and the edge that takes the response. -/
def transactionScript (r : Request) (wait : Nat) : List Edge :=
  (r.first :: r.data).map offerEdge
    ++ List.replicate wait { rst := false, reqValid := false, reqData := 0, rspReady := false, latencyDone := false }
    ++ [{ rst := false, reqValid := false, reqData := 0, rspReady := false, latencyDone := true },
        { rst := false, reqValid := false, reqData := 0, rspReady := true, latencyDone := false }]

/-- A run may end here (70_reset_and_hazards.md R353): the unit is in IDLE, and the host owes and awaits nothing. -/
def State.runEnded (s : State) : Bool := s.phase == .idle && s.offered.isNone && s.txn.isNone

end Sys2Proof.Machine
end

