-- ==== Sys2Proof/Certificates/Slice0/Obligations.lean ====
section
/-! DEFINITION. The statements about the unit. A request beat is written `c ++ b ++ a ++ cmd`, the spec's `C_B_A_cmd`
(30_encoding.md R72). Every `∃ t, exec … = .next t` and every equation `exec … = .next { s with … }` says that the command
completes, and the equation is its frame as well: no field of the state is changed but those named. That a field which
10_state.md R38 does not assign keeps its value even where R37 does not call it meaningful is the model's reading of R38 (log
entry 12); no rule is cited for that part of a frame. `script`, `offered`, `draw`, `txn` and `log` are the model's own fields
(log entry 10). -/

open Sys2Proof Sys2Proof.Machine

/-! ### Encoding -/

/-- A sanity check of the decoder on four words written out from the spec's encoding. -/
def Obligations.SpecWordsDecodeToTheirCommands : Prop :=
  decode 0x00000000000000031234567800000005#128 = .ok (.setbit 0x12345678#32 3) ∧
  decode 0x00000007000000040000000000000003#128 = .ok (.rangemask 4 7) ∧
  decode 0x0000001F000000008000000000000010#128 = .ok (.tobinary 0x80000000#32) ∧
  decode 0x00000000000000031234567800000105#128 = .error .reservedBitsSet

/-- 30_encoding.md R74: a command word is legal exactly when `cmd[31:5] = 0` and `0x01 <= cmd[4:0] <= 0x10`, and an idle
unit answers a first beat that is not legal with `IllegalCommand`, one beat long whatever its opcode field holds. -/
def Obligations.OnlyLegalWordsAreCommands : Prop :=
  (∀ x : Beat, (∃ i, decode x = .ok i) ↔
    (x.extractLsb' 5 27 = 0 ∧ 1 ≤ (x.extractLsb' 0 5).toNat ∧ (x.extractLsb' 0 5).toNat ≤ 16)) ∧
  (∀ (x : Beat), ¬ (x.extractLsb' 5 27 = 0 ∧ 1 ≤ (x.extractLsb' 0 5).toNat ∧ (x.extractLsb' 0 5).toNat ≤ 16) →
    transactionLength x = 1 ∧
    ∀ (s : State) (e : Edge) (rest : List Edge), s.script = e :: rest → e.rst = false → e.reqValid = true →
      e.reqData = x → s.phase = .idle → (s.offered = none ∨ s.offered = some x) →
      step s = .next { s with
        script := rest, draw := s.draw + 1, offered := none, txn := some ⟨x, []⟩, pending := .err .illegalCommand,
        phase := .busy })

/-- Decode and encode agree: no operand of any well-formed command is dropped or changed on its way through a beat. -/
def Obligations.DecodeOfEncodeIsTheCommand : Prop :=
  ∀ i : Instr, i.wellFormed = true → decode (encode i) = .ok i

/-- Each beat has one meaning: a decoded command is well formed, its own encoding has the beat's command word, and that
encoding means the same command. -/
def Obligations.DecodedCommandsAreWellFormed : Prop :=
  ∀ (x : Beat) (i : Instr), decode x = .ok i →
    i.wellFormed = true ∧ (encode i).extractLsb' 0 32 = x.extractLsb' 0 32 ∧ decode (encode i) = .ok i

/-- 30_encoding.md R78: a transaction's length is told from its first beat alone, by the unit's decoder and by a decoder of
a recorded beat stream. -/
def Obligations.FirstBeatTellsTheTransactionLength : Prop :=
  (∀ x : Beat, transactionLength x =
    if (x.extractLsb' 5 27 = 0 ∧ 1 ≤ (x.extractLsb' 0 5).toNat ∧ (x.extractLsb' 0 5).toNat ≤ 16) ∧
        (x.extractLsb' 0 5).toNat = 0x0F then 1 + (x.extractLsb' 64 32).toNat else 1) ∧
  (∀ (r : Request) (rest : List Beat), r.complete = true → takeRequest (r.first :: r.data ++ rest) = some (r, rest))

/-! ### The commands, one rule each -/

/-- 40_mask_builder.md R100. -/
def Obligations.SinglebitSetsOneBit : Prop :=
  (∀ a b c : Word, decode (c ++ b ++ a ++ 0x01#32) = .ok (.singlebit b.toNat)) ∧
  ∀ (index : Nat) (s : State),
    (index < 32 → ∃ r : Word,
      exec (.singlebit index) s = .next { s with pending := .ok r [], phase := .busy } ∧
      ∀ k, r.getLsbD k = decide (k = index)) ∧
    (32 ≤ index →
      exec (.singlebit index) s = .next { s with pending := .err .indexOutOfRange, phase := .busy })

/-- 40_mask_builder.md R103. -/
def Obligations.RunmaskSetsTheLowestBits : Prop :=
  (∀ a b c : Word, decode (c ++ b ++ a ++ 0x02#32) = .ok (.runmask b.toNat)) ∧
  ∀ (count : Nat) (s : State),
    (count ≤ 32 → ∃ r : Word,
      exec (.runmask count) s = .next { s with pending := .ok r [], phase := .busy } ∧
      ∀ k, r.getLsbD k = decide (k < count)) ∧
    (32 < count →
      exec (.runmask count) s = .next { s with pending := .err .invalidRunLength, phase := .busy })

/-- 40_mask_builder.md R106. -/
def Obligations.RangemaskSetsTheInclusiveRange : Prop :=
  (∀ a b c : Word, decode (c ++ b ++ a ++ 0x03#32) = .ok (.rangemask b.toNat c.toNat)) ∧
  ∀ (lo hi : Nat) (s : State),
    (lo ≤ hi → hi < 32 → ∃ r : Word,
      exec (.rangemask lo hi) s = .next { s with pending := .ok r [], phase := .busy } ∧
      ∀ k, r.getLsbD k = decide (lo ≤ k ∧ k ≤ hi)) ∧
    (32 ≤ lo ∨ 32 ≤ hi ∨ hi < lo →
      exec (.rangemask lo hi) s = .next { s with pending := .err .indexOutOfRange, phase := .busy })

/-- 41_bit_accessor.md R120. -/
def Obligations.GetbitReadsOneBit : Prop :=
  (∀ a b c : Word, decode (c ++ b ++ a ++ 0x04#32) = .ok (.getbit a b.toNat)) ∧
  ∀ (w : Word) (index : Nat) (s : State),
    (index < 32 →
      exec (.getbit w index) s =
        .next { s with pending := .ok (if w.getLsbD index then 1 else 0) [], phase := .busy }) ∧
    (32 ≤ index →
      exec (.getbit w index) s = .next { s with pending := .err .indexOutOfRange, phase := .busy })

/-- 41_bit_accessor.md R122. -/
def Obligations.SetbitSetsOneBitOfTheWord : Prop :=
  (∀ a b c : Word, decode (c ++ b ++ a ++ 0x05#32) = .ok (.setbit a b.toNat)) ∧
  ∀ (w : Word) (index : Nat) (s : State),
    (index < 32 → ∃ r : Word,
      exec (.setbit w index) s = .next { s with pending := .ok r [], phase := .busy } ∧
      ∀ k, r.getLsbD k = (w.getLsbD k || decide (k = index))) ∧
    (32 ≤ index →
      exec (.setbit w index) s = .next { s with pending := .err .indexOutOfRange, phase := .busy })

/-- 41_bit_accessor.md R124. -/
def Obligations.ClearbitClearsOneBitOfTheWord : Prop :=
  (∀ a b c : Word, decode (c ++ b ++ a ++ 0x06#32) = .ok (.clearbit a b.toNat)) ∧
  ∀ (w : Word) (index : Nat) (s : State),
    (index < 32 → ∃ r : Word,
      exec (.clearbit w index) s = .next { s with pending := .ok r [], phase := .busy } ∧
      ∀ k, r.getLsbD k = (w.getLsbD k && !decide (k = index))) ∧
    (32 ≤ index →
      exec (.clearbit w index) s = .next { s with pending := .err .indexOutOfRange, phase := .busy })

/-- 41_bit_accessor.md R126. -/
def Obligations.TogglebitInvertsOneBitOfTheWord : Prop :=
  (∀ a b c : Word, decode (c ++ b ++ a ++ 0x07#32) = .ok (.togglebit a b.toNat)) ∧
  ∀ (w : Word) (index : Nat) (s : State),
    (index < 32 → ∃ r : Word,
      exec (.togglebit w index) s = .next { s with pending := .ok r [], phase := .busy } ∧
      ∀ k, r.getLsbD k = Bool.xor (w.getLsbD k) (decide (k = index))) ∧
    (32 ≤ index →
      exec (.togglebit w index) s = .next { s with pending := .err .indexOutOfRange, phase := .busy })

/-- 42_popcount.md R140: the result is the number of i in [0, 31] with `A[i] == 1`. -/
def Obligations.PopcountCountsTheSetBits : Prop :=
  (∀ a b c : Word, decode (c ++ b ++ a ++ 0x08#32) = .ok (.popcount a)) ∧
  ∀ (w : Word) (s : State), ∃ r : Word,
    exec (.popcount w) s = .next { s with pending := .ok r [], phase := .busy } ∧
    r.toNat = ((Finset.range 32).filter (fun i => w.getLsbD i = true)).card

/-- 43_highest_bit.md R160: the result is the largest i with `A[i] == 1`, and the zero word is `EmptyInput`. -/
def Obligations.HighestbitLocatesTheTopBit : Prop :=
  (∀ a b c : Word, decode (c ++ b ++ a ++ 0x09#32) = .ok (.highestbit a)) ∧
  ∀ (w : Word) (s : State),
    (w ≠ 0 → ∃ r : Word,
      exec (.highestbit w) s = .next { s with pending := .ok r [], phase := .busy } ∧
      r.toNat ≤ 31 ∧ w.getLsbD r.toNat = true ∧ (∀ k, r.toNat < k → w.getLsbD k = false) ∧
      2 ^ r.toNat ≤ w.toNat ∧ w.toNat < 2 ^ (r.toNat + 1)) ∧
    (w = 0 →
      exec (.highestbit w) s = .next { s with pending := .err .emptyInput, phase := .busy })

/-- 44_rotate.md R180: bit k of the result is bit `k - count` of the word, positions taken modulo 32, for every count. -/
def Obligations.RotlMovesEveryBitUp : Prop :=
  (∀ a b c : Word, decode (c ++ b ++ a ++ 0x0A#32) = .ok (.rotl a b.toNat)) ∧
  ∀ (w : Word) (count : Nat) (s : State), ∃ r : Word,
    exec (.rotl w count) s = .next { s with pending := .ok r [], phase := .busy } ∧
    ∀ k, k < 32 → r.getLsbD ((k + count) % 32) = w.getLsbD k

/-- 44_rotate.md R182: bit k of the result is bit `k + count` of the word, positions taken modulo 32, for every count. -/
def Obligations.RotrMovesEveryBitDown : Prop :=
  (∀ a b c : Word, decode (c ++ b ++ a ++ 0x0B#32) = .ok (.rotr a b.toNat)) ∧
  ∀ (w : Word) (count : Nat) (s : State), ∃ r : Word,
    exec (.rotr w count) s = .next { s with pending := .ok r [], phase := .busy } ∧
    ∀ k, k < 32 → r.getLsbD k = w.getLsbD ((k + count) % 32)

/-- 45_run_matcher.md R200: the result is the number of positions p in [0, 32 - L] whose L-bit window is all ones. -/
def Obligations.CountrunsCountsTheWindows : Prop :=
  (∀ a b c : Word, decode (c ++ b ++ a ++ 0x0C#32) = .ok (.countruns a b.toNat)) ∧
  ∀ (w : Word) (runLength : Nat) (s : State),
    (1 ≤ runLength → runLength ≤ 32 → ∃ r : Word,
      exec (.countruns w runLength) s = .next { s with pending := .ok r [], phase := .busy } ∧
      r.toNat = ((Finset.range (32 - runLength + 1)).filter
        (fun p => ∀ j < runLength, w.getLsbD (p + j) = true)).card) ∧
    (runLength = 0 ∨ 32 < runLength →
      exec (.countruns w runLength) s = .next { s with pending := .err .invalidRunLength, phase := .busy })

/-- 46_bit_rearranger.md R220: the two bits are exchanged, and an index out of range is an error even when both are equal. -/
def Obligations.SwapbitsExchangesTwoBits : Prop :=
  (∀ a b c : Word, decode (c ++ b ++ a ++ 0x0D#32) = .ok (.swapbits a b.toNat c.toNat)) ∧
  ∀ (w : Word) (i j : Nat) (s : State),
    (i < 32 → j < 32 → ∃ r : Word,
      exec (.swapbits w i j) s = .next { s with pending := .ok r [], phase := .busy } ∧
      ∀ k, r.getLsbD k = w.getLsbD (if k = i then j else if k = j then i else k)) ∧
    (32 ≤ i ∨ 32 ≤ j →
      exec (.swapbits w i j) s = .next { s with pending := .err .indexOutOfRange, phase := .busy })

/-- 46_bit_rearranger.md R223: bits below the index stay, bits above it move down one, and bit 31 becomes 0. -/
def Obligations.RemovebitClosesTheGap : Prop :=
  (∀ a b c : Word, decode (c ++ b ++ a ++ 0x0E#32) = .ok (.removebit a b.toNat)) ∧
  ∀ (w : Word) (index : Nat) (s : State),
    (index < 32 → ∃ r : Word,
      exec (.removebit w index) s = .next { s with pending := .ok r [], phase := .busy } ∧
      (∀ k, k < 31 → r.getLsbD k = if k < index then w.getLsbD k else w.getLsbD (k + 1)) ∧
      r.getLsbD 31 = false) ∧
    (32 ≤ index →
      exec (.removebit w index) s = .next { s with pending := .err .indexOutOfRange, phase := .busy })

/-- 47_unique_finder.md R240, with 10_state.md R38 and 30_encoding.md R77: an empty sequence is `EmptyInput` at once;
otherwise the command opens the collection of N data beats, and the N-th of them ends it with the XOR of the A fields,
whatever the beats' other fields hold. That `acc` is kept on `EmptyInput` and `pending` when the collection opens is the
model's reading of R38 (log entries 12 and 21). -/
def Obligations.FinduniqueFoldsItsSequence : Prop :=
  (∀ a b c : Word, decode (c ++ b ++ a ++ 0x0F#32) = .ok (.findunique b.toNat)) ∧
  (∀ s : State, exec (.findunique 0) s = .next { s with pending := .err .emptyInput, phase := .busy }) ∧
  (∀ (n : Nat) (s : State), 1 ≤ n →
    exec (.findunique n) s = .next { s with acc := 0, remaining := n, phase := .collect }) ∧
  (∀ (edges rest : List Edge) (s : State), edges ≠ [] → (∀ e ∈ edges, e.rst = false ∧ e.reqValid = true) →
    s.phase = .collect → s.acc = 0 → s.remaining = edges.length → s.offered = none → s.script = edges ++ rest →
    ∃ t : State, runEdges edges.length s = .next t ∧ t.phase = .busy ∧ t.script = rest ∧
      t.log = s.log ∧
      t.pending = .ok ((edges.map (fun e => e.reqData.extractLsb' 32 32)).foldl (fun x d => x ^^^ d) 0) [])

/-- 48_binary_renderer.md R260 and R261: the digits from the highest set bit down to bit 0, `"0"` for the zero word, result
0. The character codes 0x30 and 0x31 are the spec's from general knowledge (R261; 93 K3). -/
def Obligations.TobinaryWritesTheMinimalDigits : Prop :=
  (∀ a b c : Word, decode (c ++ b ++ a ++ 0x10#32) = .ok (.tobinary a)) ∧
  ∀ (w : Word) (s : State), ∃ str : List Ascii,
    exec (.tobinary w) s = .next { s with pending := .ok 0 str, phase := .busy } ∧
    (w = 0 → str = [0x30#8]) ∧
    (w ≠ 0 → ∃ p, p < 32 ∧ w.getLsbD p = true ∧ (∀ k, p < k → w.getLsbD k = false) ∧ str.length = p + 1 ∧
      ∀ k, k ≤ p → str[k]? = some (if w.getLsbD (p - k) then 0x31#8 else 0x30#8))

/-! ### Laws between commands -/

/-- 41_bit_accessor.md R127. -/
def Obligations.BitAccessorLaws : Prop :=
  (∀ (w : Word) (i : Nat), i < 32 →
    (∃ r, Answers (.setbit w i) (.ok r []) ∧ Answers (.getbit r i) (.ok 1 [])) ∧
    (∃ r, Answers (.clearbit w i) (.ok r []) ∧ Answers (.getbit r i) (.ok 0 [])) ∧
    (∃ r, Answers (.togglebit w i) (.ok r []) ∧ Answers (.togglebit r i) (.ok w []))) ∧
  (∀ (w : Word) (i : Nat), 32 ≤ i →
    Answers (.getbit w i) (.err .indexOutOfRange) ∧ Answers (.setbit w i) (.err .indexOutOfRange) ∧
    Answers (.clearbit w i) (.err .indexOutOfRange) ∧ Answers (.togglebit w i) (.err .indexOutOfRange))

/-- 42_popcount.md R143 (with R141, R142): the bit-scan and Kernighan's loop both give R140's result, and Kernighan's loop
is done after as many rounds as there are set bits. -/
def Obligations.PopcountStrategiesAgree : Prop :=
  (∀ w : Word, Answers (.popcount w) (.ok (BitVec.ofNat 32 (bitScanCount 32 0 w)) []) ∧
    ∀ rounds, bitScanCount 32 0 w ≤ rounds →
      Answers (.popcount w) (.ok (BitVec.ofNat 32 (kernighanCount rounds 0 w)) [])) ∧
  Answers (.popcount 0) (.ok 0 []) ∧
  ∃ full, Answers fullMask (.ok full []) ∧ Answers (.popcount full) (.ok 32 [])

/-- 43_highest_bit.md, strategies A, B and C (R161 to R164): for every nonzero word each gives HIGHESTBIT's result, and the
zero word is `EmptyInput`. What the loops would do on 0 is the spec's own inference and is not stated. -/
def Obligations.HighestbitStrategiesAgree : Prop :=
  (∀ w : Word, w ≠ 0 → ∃ p, p < 32 ∧ Answers (.highestbit w) (.ok (BitVec.ofNat 32 p) []) ∧
    highestByScan w = some p ∧
    (∀ rounds, 32 ≤ rounds → highestByThreshold w rounds 0x80000000#32 31 = p) ∧
    highestByMask w 31 = p) ∧
  Answers (.highestbit 0) (.err .emptyInput)

/-- 41_bit_accessor.md, the CLEARBIT strategies (R125): the two formulas are the spec's examples from general knowledge. -/
def Obligations.ClearbitStrategiesAgree : Prop :=
  ∀ (w : Word) (i : Nat), i < 32 →
    Answers (.clearbit w i) (.ok (clearByXorOfAnd w i) []) ∧ Answers (.clearbit w i) (.ok (clearBySetThenXor w i) [])

/-- 44_rotate.md, the rotation laws (R184; the second law beyond counts below 32 and the bit count are the spec's own
inferences). -/
def Obligations.RotationLaws : Prop :=
  ∀ (w : Word) (c : Nat),
    (∃ r, Answers (.rotr w c) (.ok r []) ∧ Answers (.rotl r c) (.ok w [])) ∧
    (∃ r, Answers (.rotl w c) (.ok r []) ∧ Answers (.rotr r c) (.ok w [])) ∧
    Answers (.rotl w 0) (.ok w []) ∧
    (∃ r, Answers (.rotl w c) (.ok r []) ∧ Answers (.rotr w ((32 - c % 32) % 32)) (.ok r [])) ∧
    (∃ r n, Answers (.rotl w c) (.ok r []) ∧ Answers (.popcount w) (.ok n []) ∧ Answers (.popcount r) (.ok n []))

/-- 45_run_matcher.md, the placement of the pattern (R201) and the run length 1 (both the spec's own inferences). -/
def Obligations.CountrunsPlacementsAgree : Prop :=
  (∀ (w : Word) (n : Nat), 1 ≤ n → n ≤ 32 →
    Answers (.countruns w n) (.ok (BitVec.ofNat 32 (countWindowsByPattern w n)) [])) ∧
  (∀ w : Word, ∃ r, Answers (.countruns w 1) (.ok r []) ∧ Answers (.popcount w) (.ok r []))

/-- 46_bit_rearranger.md: SWAPBITS is self-inverse (R221), symmetric in its indices and keeps the number of set bits, and
`POPCOUNT(REMOVEBIT A, i) = POPCOUNT(A) - GETBIT(A, i)` (R223). All but the first for unequal indices are the spec's own
inferences. -/
def Obligations.BitRearrangerLaws : Prop :=
  (∀ (w : Word) (i j : Nat), i < 32 → j < 32 → ∃ r n,
    Answers (.swapbits w i j) (.ok r []) ∧ Answers (.swapbits r i j) (.ok w []) ∧
    Answers (.swapbits w j i) (.ok r []) ∧ Answers (.popcount w) (.ok n []) ∧ Answers (.popcount r) (.ok n [])) ∧
  (∀ (w : Word) (i : Nat), i < 32 → ∃ r n m g : Word,
    Answers (.removebit w i) (.ok r []) ∧ Answers (.popcount w) (.ok n []) ∧ Answers (.popcount r) (.ok m []) ∧
    Answers (.getbit w i) (.ok g []) ∧ n.toNat = m.toNat + g.toNat)

/-- 40_mask_builder.md: `singleBitF(i)` has exactly one bit set, at position i (R101), a RANGEMASK is made of two RUNMASKs
(R106, 95_test_vectors.md section 3), and FULLMASK, which is RUNMASK 32, gives all ones (30_encoding.md R85): all three the
spec's own inferences. -/
def Obligations.MaskLaws : Prop :=
  (∀ i, i < 32 → ∃ m, Answers (.singlebit i) (.ok m []) ∧ Answers (.popcount m) (.ok 1 []) ∧
    Answers (.highestbit m) (.ok (BitVec.ofNat 32 i) [])) ∧
  (∀ lo hi, lo ≤ hi → hi < 32 → ∃ low high : Word, Answers (.runmask lo) (.ok low []) ∧
    Answers (.runmask (hi + 1)) (.ok high []) ∧ Answers (.rangemask lo hi) (.ok (high &&& ~~~low) []) ∧
    Answers (.rangemask lo hi) (.ok (high - low) [])) ∧
  fullMask = .runmask 32 ∧ Answers fullMask (.ok 0xFFFFFFFF#32 [])

/-- 48_binary_renderer.md, the two algorithms (R262), for nonzero words, and `HIGHESTBIT A = strlen(TOBINARY A) - 1`
(95_test_vectors.md section 3), both the spec's own inferences. -/
def Obligations.BinaryRendererAlgorithmsAgree : Prop :=
  ∀ w : Word, w ≠ 0 →
    Answers (.tobinary w) (.ok 0 (binaryStringByShifting w)) ∧ Answers (.tobinary w) (.ok 0 (binaryStringByScan w)) ∧
    Answers (.highestbit w) (.ok (BitVec.ofNat 32 ((binaryStringByScan w).length - 1)) [])

/-- 47_unique_finder.md R241: with the precondition the result is the one value of odd multiplicity, without it the XOR of
every element, and the status is OK either way. -/
def Obligations.FinduniqueFindsTheOddOneOut : Prop :=
  (∀ (elements : List Word) (x : Word), elements.length < 2 ^ 32 → elements.count x % 2 = 1 →
    (∀ y, y ≠ x → elements.count y % 2 = 0) →
    ∃ r, encodeFindUnique elements = some r ∧ execRequest r = .ok x []) ∧
  (∀ elements : List Word, elements ≠ [] → elements.length < 2 ^ 32 →
    ∃ r, encodeFindUnique elements = some r ∧ execRequest r = .ok (elements.foldl (fun x d => x ^^^ d) 0) [])

/-- 47_unique_finder.md R240, a corner case: the order of the elements does not matter. -/
def Obligations.FinduniqueIgnoresTheOrder : Prop :=
  ∀ xs ys : List Word, xs.Perm ys → (encodeFindUnique xs).map execRequest = (encodeFindUnique ys).map execRequest

/-! ### Statuses -/

/-- 60_exceptions.md R306: a legal command ends only with OK or a status listed for it, and an illegal one with
`IllegalCommand`. -/
def Obligations.CommandsEndOnlyWithListedStatuses : Prop :=
  (∀ (r : Request) (i : Instr), decode r.first = .ok i →
    (∃ w str, execRequest r = .ok w str) ∨ ∃ e ∈ possibleErrors i, execRequest r = .err e) ∧
  (∀ (r : Request) (why : Rejection), decode r.first = .error why → execRequest r = .err .illegalCommand)

/-- 60_exceptions.md R301: exactly when a command ends in `IndexOutOfRange`. -/
def Obligations.IndexOutOfRangeExactly : Prop :=
  ∀ (i : Instr) (s : State), ∃ t, exec i s = .next t ∧
    ((t.phase = .busy ∧ t.pending = .err .indexOutOfRange) ↔
      ((∃ n, i = .singlebit n ∧ 32 ≤ n) ∨
       (∃ lo hi, i = .rangemask lo hi ∧ (32 ≤ lo ∨ 32 ≤ hi ∨ hi < lo)) ∨
       (∃ w n, (i = .getbit w n ∨ i = .setbit w n ∨ i = .clearbit w n ∨ i = .togglebit w n ∨ i = .removebit w n) ∧
         32 ≤ n) ∨
       (∃ w a b, i = .swapbits w a b ∧ (32 ≤ a ∨ 32 ≤ b))))

/-- 60_exceptions.md R302: exactly when a command ends in `InvalidRunLength`. -/
def Obligations.InvalidRunLengthExactly : Prop :=
  ∀ (i : Instr) (s : State), ∃ t, exec i s = .next t ∧
    ((t.phase = .busy ∧ t.pending = .err .invalidRunLength) ↔
      ((∃ w n, i = .countruns w n ∧ (n = 0 ∨ 32 < n)) ∨ (∃ n, i = .runmask n ∧ 32 < n)))

/-- 60_exceptions.md R305: exactly when a command ends in `EmptyInput`. -/
def Obligations.EmptyInputExactly : Prop :=
  ∀ (i : Instr) (s : State), ∃ t, exec i s = .next t ∧
    ((t.phase = .busy ∧ t.pending = .err .emptyInput) ↔ (i = .highestbit 0 ∨ i = .findunique 0))

/-- 60_exceptions.md R304: exactly when an idle unit answers a first beat with `IllegalCommand`; no operand is examined, and
no data beats are expected. -/
def Obligations.IllegalCommandExactly : Prop :=
  ∀ (s : State) (e : Edge) (rest : List Edge), s.script = e :: rest → e.rst = false → e.reqValid = true →
    s.phase = .idle → (s.offered = none ∨ s.offered = some e.reqData) →
    ((∃ t, step s = .next t ∧ t.phase = .busy ∧ t.pending = .err .illegalCommand) ↔
      (e.reqData.extractLsb' 5 27 ≠ 0 ∨ e.reqData.extractLsb' 0 5 = 0 ∨ 0x11 ≤ (e.reqData.extractLsb' 0 5).toNat)) ∧
    ((e.reqData.extractLsb' 5 27 ≠ 0 ∨ e.reqData.extractLsb' 0 5 = 0 ∨ 0x11 ≤ (e.reqData.extractLsb' 0 5).toNat) →
      transactionLength e.reqData = 1)

/-- 60_exceptions.md R300: the codes 0 to 4 of the outcomes, and codes 5 to 7 are never shown as a response. -/
def Obligations.StatusCodesOfTheOutcomes : Prop :=
  ∀ s : State, s.phase = .respond →
    (∀ w str, s.pending = .ok w str → s.rspFields.status = 0) ∧
    (s.pending = .err .indexOutOfRange → s.rspFields.status = 1) ∧
    (s.pending = .err .invalidRunLength → s.rspFields.status = 2) ∧
    (s.pending = .err .emptyInput → s.rspFields.status = 3) ∧
    (s.pending = .err .illegalCommand → s.rspFields.status = 4) ∧
    s.rspFields.status.toNat ≤ 4

/-- 60_exceptions.md R303: an error shows zeros beside its status, and no value can be read from it. -/
def Obligations.ErrorResponsesCarryNoValue : Prop :=
  ∀ (s : State) (e : ErrorStatus), s.phase = .respond → s.pending = .err e →
    s.rspFields.status ≠ 0 ∧ s.rspFields.result = 0 ∧ s.rspFields.strlen = 0 ∧ s.rspFields.str = 0 ∧
    readResponse s.rspFields = .ok (.err e) ∧ valueOf (.err e) = none

/-! ### The response fields -/

/-- 30_encoding.md section 4 and 48_binary_renderer.md (R81, R261; the ASCII codes are the spec's from general knowledge):
what a responding unit shows of an OK response, character by character, and that only TOBINARY shows a string. -/
def Obligations.ResponseFieldsShowTheResponse : Prop :=
  (∀ (s : State) (w : Word) (str : List Ascii), s.phase = .respond → s.pending = .ok w str → str.length ≤ 32 →
    s.rspFields.status = 0 ∧ s.rspFields.result = w ∧ s.rspFields.strlen.toNat = str.length ∧
    ∀ k, k < 32 → s.rspFields.str.extractLsb' (8 * k) 8 = (str[k]?).getD 0) ∧
  (∀ (r : Request) (w : Word) (str : List Ascii), execRequest r = .ok w str →
    str.length ≤ 32 ∧ (str ≠ [] → ∃ x, decode r.first = .ok (.tobinary x) ∧ w = 0) ∧
    ∀ c ∈ str, c = 0x30#8 ∨ c = 0x31#8)

/-- A host that reads the response fields of any response the unit can give gets that response back. -/
def Obligations.HostReadsBackTheResponse : Prop :=
  (∀ r : Request, readResponse (responseFields (execRequest r)) = .ok (execRequest r)) ∧
  (∀ f : ResponseFields, 5 ≤ f.status.toNat → readResponse f = .error .statusNeverProduced)

/-! ### The clock edges -/

/-- A step runs the decoded command: on an edge without reset that transfers a legal first beat to an idle unit, step is
exec of the command in the state that has used up the edge and opened the transaction's record. -/
def Obligations.StepRunsTheDecodedCommand : Prop :=
  ∀ (s : State) (e : Edge) (rest : List Edge) (i : Instr), s.script = e :: rest → e.rst = false →
    e.reqValid = true → (s.offered = none ∨ s.offered = some e.reqData) → s.phase = .idle → decode e.reqData = .ok i →
    step s = exec i { s with script := rest, draw := s.draw + 1, offered := none, txn := some ⟨e.reqData, []⟩ }

/-- 10_state.md R38: the whole beat-level step relation, for every edge with `rst = 0` on which the host keeps its hold
(R345). An edge that no line of the relation lists changes nothing of the unit's state. On a listed edge the fields without
an assignment keep their values (the model's reading, log entry 12). A beat offered while `req_ready = 0` is owed from then
on, and an edge without an offer leaves nothing owed (R345, R348; `offered` is the model's own field, log entry 10). -/
def Obligations.BeatLevelStepRelation : Prop :=
  (∀ s : State, (s.reqReady false = true ↔ s.phase = .idle ∨ s.phase = .collect) ∧
    (s.rspValid = true ↔ s.phase = .respond)) ∧
  ∀ (s u : State) (e : Edge) (rest : List Edge), s.script = e :: rest → e.rst = false →
    (∀ b, s.offered = some b → e.reqValid = true ∧ e.reqData = b) →
    u = { s with script := rest, draw := s.draw + 1 } →
    (s.phase = .idle → e.reqValid = true →
      (legal (cmdOf e.reqData) = false →
        step s = .next { u with
          offered := none, txn := some ⟨e.reqData, []⟩, pending := .err .illegalCommand, phase := .busy }) ∧
      (legal (cmdOf e.reqData) = true → opcodeField (cmdOf e.reqData) = 0x0F → operandB e.reqData = 0 →
        step s = .next { u with
          offered := none, txn := some ⟨e.reqData, []⟩, pending := .err .emptyInput, phase := .busy }) ∧
      (legal (cmdOf e.reqData) = true → opcodeField (cmdOf e.reqData) = 0x0F → operandB e.reqData ≠ 0 →
        step s = .next { u with
          offered := none, txn := some ⟨e.reqData, []⟩, acc := 0, remaining := operandB e.reqData,
          phase := .collect }) ∧
      (legal (cmdOf e.reqData) = true → opcodeField (cmdOf e.reqData) ≠ 0x0F →
        step s = .next { u with
          offered := none, txn := some ⟨e.reqData, []⟩, pending := execRequest ⟨e.reqData, []⟩, phase := .busy })) ∧
    (s.phase = .collect → 1 ≤ s.remaining → e.reqValid = true → ∃ t, step s = .next t ∧ t.offered = none ∧
      t.script = rest ∧ t.log = s.log ∧
      t.acc = s.acc ^^^ operandA e.reqData ∧ t.remaining = s.remaining - 1 ∧
      (s.remaining - 1 = 0 → t.phase = .busy ∧ t.pending = .ok (s.acc ^^^ operandA e.reqData) []) ∧
      (s.remaining - 1 ≠ 0 → t.phase = .collect ∧ t.pending = s.pending)) ∧
    (s.phase = .busy → e.latencyDone = true → step s = .next { u with
      phase := .respond, offered := if e.reqValid then some e.reqData else none }) ∧
    (s.phase = .respond → e.rspReady = true → step s = .next { u with
      phase := .idle, offered := if e.reqValid then some e.reqData else none, txn := none,
      log := s.log ++ [⟨s.txn, s.pending⟩] }) ∧
    ((s.phase = .idle ∨ s.phase = .collect) → e.reqValid = false → step s = .next u) ∧
    ((s.phase = .busy ∧ e.latencyDone = false) ∨ (s.phase = .respond ∧ e.rspReady = false) →
      step s = .next { u with offered := if e.reqValid then some e.reqData else none })

/-- 10_state.md R41: the values the spec gives the reset state. Nothing is said of `pending`, which it leaves unspecified
(log entry 4). -/
def Obligations.ResetStateHoldsTheSpecsValues : Prop :=
  State.reset.phase = .idle ∧ State.reset.acc = 0 ∧ State.reset.remaining = 0 ∧
  State.reset.reqReady false = true ∧ State.reset.reqReady true = false ∧ State.reset.rspValid = false

/-- 70_reset_and_hazards.md R340 and R341: an edge with `rst = 1` sets the reset values from every state whatever, no
transfer happens, and `req_ready` is 0 on it. -/
def Obligations.ResetEdgeWinsFromEveryState : Prop :=
  ∀ (s : State) (e : Edge) (rest : List Edge), s.script = e :: rest → e.rst = true →
    s.reqReady true = false ∧
    ∃ t, step s = .next t ∧ t.phase = .idle ∧ t.acc = 0 ∧ t.remaining = 0 ∧ t.rspValid = false ∧
      t.script = rest ∧ t.log = s.log

/-- 70_reset_and_hazards.md R342 and R343: a transaction cut by reset leaves no trace and no response, and the next edge
accepts a command beat, legal or not, also where the host owed another beat before the reset: that a reset lifts the hold of
R345 is read from trace P5 of 95_test_vectors.md, edges 3 and 4 (log entry 9). -/
def Obligations.ResetAbandonsTheTransaction : Prop :=
  ∀ (s : State) (e f : Edge) (rest : List Edge), s.script = e :: f :: rest → e.rst = true →
    f.rst = false → f.reqValid = true →
    ∃ t u v, step s = .next t ∧ t.phase = .idle ∧ t.acc = 0 ∧ t.remaining = 0 ∧ t.txn = none ∧ t.log = s.log ∧
      t.reqReady false = true ∧ step t = .next v ∧
      u = { t with script := rest, draw := t.draw + 1, txn := some ⟨f.reqData, []⟩ } ∧
      (∀ i, decode f.reqData = .ok i → exec i u = .next v) ∧
      (∀ why, decode f.reqData = .error why → v = { u with pending := .err .illegalCommand, phase := .busy })

/-- 70_reset_and_hazards.md R346: while the host does not take the response, every response field stays as it is. -/
def Obligations.ResponseHeldUntilTaken : Prop :=
  ∀ (s : State) (e : Edge) (rest : List Edge), s.script = e :: rest → e.rst = false → e.rspReady = false →
    (∀ b, s.offered = some b → e.reqValid = true ∧ e.reqData = b) → s.rspValid = true →
    ∃ t, step s = .next t ∧ t.rspValid = true ∧ t.rspFields = s.rspFields ∧ t.log = s.log ∧ t.reqReady false = false

/-- 70_reset_and_hazards.md R348: a beat offered while a command is in progress is a hold, not an error: it waits, and the
command in progress is not touched by it. That `pending` is kept where the response is transferred, and `acc` and `remaining`
throughout, is the model's reading of R38 (log entry 12). -/
def Obligations.OfferedBeatWaitsWhileBusy : Prop :=
  ∀ (s : State) (e : Edge) (rest : List Edge), s.script = e :: rest → e.rst = false → e.reqValid = true →
    (∀ b, s.offered = some b → e.reqData = b) → s.phase = .busy ∨ s.phase = .respond →
    s.reqReady false = false ∧
    ∃ t, step s = .next t ∧ t.offered = some e.reqData ∧ t.pending = s.pending ∧ t.acc = s.acc ∧
      t.remaining = s.remaining ∧ (t.phase = .idle → s.phase = .respond ∧ e.rspReady = true)

/-- 70_reset_and_hazards.md, FINDUNIQUE with too few beats (R347; 93 S7): the unit waits, through any number of edges
without a beat or a reset. -/
def Obligations.FinduniqueWaitsForItsBeats : Prop :=
  ∀ (edges rest : List Edge) (s : State), (∀ e ∈ edges, e.rst = false ∧ e.reqValid = false) →
    s.phase = .collect → s.offered = none → s.script = edges ++ rest →
    runEdges edges.length s = .next { s with script := rest, draw := s.draw + edges.length }

/-- The machine never stops on its own (60_exceptions.md R308, 70_reset_and_hazards.md R352): no step faults, and a step has
no meaning only on an edge without reset on which the host withdraws or changes a beat it still owes (R345; the refusal is
93 S6's, log entry 8). With the host's inputs used up the machine goes on as well (the quiet edge is the model's choice, log
entry 2). -/
def Obligations.StepStopsOnlyOnABrokenHold : Prop :=
  (∀ (s : State) (e : Edge) (rest : List Edge), s.script = e :: rest →
    (∀ f, step s ≠ .fault f) ∧
    ((∃ why, step s = .refused why) ↔
      (e.rst = false ∧ ∃ b, s.offered = some b ∧ (e.reqValid = false ∨ e.reqData ≠ b))) ∧
    (∀ why, step s = .refused why → why = .requestHoldBroken)) ∧
  (∀ s : State, s.script = [] → ∃ t, step s = .next t ∧ t.script = [] ∧ t.log = s.log ∧
    (s.phase = .busy → t.phase = .respond) ∧ (s.phase = .respond → t.phase = .respond ∧ t.pending = s.pending))

/-! ### Whole-machine statements -/

/-- The invariant holds at reset. -/
def Obligations.InvHoldsAtReset : Prop := Inv State.reset

/-- Every step keeps the invariant: the transaction in progress is what the phase says, and every response delivered so far
is `Exec` of its own whole request (10_state.md section 3; the refinement is the spec's own inference). -/
def Obligations.StepKeepsInv : Prop := ∀ s t : State, Inv s → step s = .next t → Inv t

/-- A response is delivered only from RESPOND on an edge without reset on which the host takes it, one at a time and in order
(20_memory.md section 2, 10_state.md section 3). -/
def Obligations.OnlyAcceptedResponsesAreDelivered : Prop :=
  ∀ s t : State, step s = .next t →
    t.log = s.log ∨
    (s.phase = .respond ∧ t.phase = .idle ∧ (currentEdge s).rst = false ∧ (currentEdge s).rspReady = true ∧
      t.log = s.log ++ [⟨s.txn, s.pending⟩])

/-- Which commands end with which response does not depend on the state they meet (00_scope.md R14, 20_memory.md R54): no
earlier command can be observed. -/
def Obligations.CommandOutcomeIgnoresTheState : Prop :=
  ∀ (i : Instr) (s t : State), ∃ s' t', exec i s = .next s' ∧ exec i t = .next t' ∧ s'.phase = t'.phase ∧
    (s'.phase = .busy → s'.pending = t'.pending) ∧
    (s'.phase = .collect → s'.acc = t'.acc ∧ s'.remaining = t'.remaining) ∧
    (s'.phase = .busy ∨ s'.phase = .collect)

/-- Nothing leaks from one command into a later one: two states that agree on the phase, the coming inputs, the owed beat
and the fields R37 calls meaningful in that phase step alike and deliver the same responses, whatever an earlier command
left in `acc`, `remaining` or `pending` and whatever was delivered before (20_memory.md section 2, 10_state.md R40). -/
def Obligations.NothingLeaksBetweenCommands : Prop :=
  ∀ s t : State, Alike s t →
    (∃ s' t', step s = .next s' ∧ step t = .next t' ∧ Alike s' t' ∧
      (s'.log.drop s.log.length).map (fun x => x.response) = (t'.log.drop t.log.length).map (fun x => x.response)) ∨
    (∃ why, step s = .refused why ∧ step t = .refused why)

/-- Every whole transaction completes with exactly its own response: from any idle unit to which the host owes nothing, or
only the first beat it has held since the command before, after the request's beats, any number of edges in BUSY and the edge that takes the response, one response has been
delivered, it is `Exec` of the request, and the unit is idle again, where a run may end (10_state.md section 3;
70_reset_and_hazards.md section 3: the BUSY step is taken and the host accepts). -/
def Obligations.WholeTransactionDeliversItsResponse : Prop :=
  ∀ (r : Request) (wait : Nat) (rest : List Edge) (s : State), r.complete = true → s.phase = .idle →
    (s.offered = none ∨ s.offered = some r.first) → s.script = transactionScript r wait ++ rest →
    ∃ t : State, runEdges (1 + r.data.length + wait + 2) s = .next t ∧ t.phase = .idle ∧
      t.offered = none ∧ t.script = rest ∧ t.log = s.log ++ [⟨some r, execRequest r⟩] ∧ t.runEnded = true

/-! ### The host's notation -/

/-- 30_encoding.md R84: a line whose command ends in an error binds its name to the error status, and a line that uses a
name bound to an error sends no beat. -/
def Obligations.ErrorBindsNoValue : Prop :=
  (∀ (bindings : List (Option Response)) (l : HostLine) (r : Request) (e : ErrorStatus),
    lineRequest bindings l = some r → execRequest r = .err e → runLines bindings [l] = bindings ++ [some (.err e)]) ∧
  (∀ (bindings : List (Option Response)) (l : HostLine) (k : Nat) (e : ErrorStatus),
    HostOperand.boundBy k ∈ l.operands → bindings[k]? = some (some (.err e)) → lineRequest bindings l = none)

/-- 30_encoding.md section 5 (R77, R83): the beats of an assembled line are one whole request for the line's command, and
FINDUNIQUE of a list of words is the first beat `B = N` and one data beat a word. A list longer than `N_MAX` has no beats
(00_scope.md R8; 93 S10). -/
def Obligations.AssembledLinesAreWholeRequests : Prop :=
  (∀ (op : Opcode) (operands : List Nat) (r : Request), assemble op operands = some r →
    r.complete = true ∧ ∃ i, decode r.first = .ok i ∧ commandOf op operands = some i) ∧
  (∀ elements : List Word, elements.length < 2 ^ 32 →
    ∃ r, assemble .findunique (elements.map BitVec.toNat) = some r ∧ encodeFindUnique elements = some r ∧
      r.first = 0#32 ++ BitVec.ofNat 32 elements.length ++ 0#32 ++ 0x0F#32 ∧
      r.data.length = elements.length ∧ r.data.map (fun x => x.extractLsb' 32 32) = elements) ∧
  (∀ operands : List Nat, 2 ^ 32 ≤ operands.length → assemble .findunique operands = none) ∧
  (∀ elements : List Word, 2 ^ 32 ≤ elements.length → encodeFindUnique elements = none)

/-- 30_encoding.md R83 with R73: "The operands are listed in the source's argument order, and each one goes to the field rule
R73 names", for each of the fifteen commands of one beat and every operand that fits its field; the fields a command ignores
hold 0, which R76 recommends. That an operand which does not fit sends no beats is the model's choice (log entry 17). -/
def Obligations.OperandsGoToTheirFields : Prop :=
  (∀ a b c : Word,
    assemble .singlebit [b.toNat] = some ⟨0#32 ++ b ++ 0#32 ++ 0x01#32, []⟩ ∧
    assemble .runmask [b.toNat] = some ⟨0#32 ++ b ++ 0#32 ++ 0x02#32, []⟩ ∧
    assemble .rangemask [b.toNat, c.toNat] = some ⟨c ++ b ++ 0#32 ++ 0x03#32, []⟩ ∧
    assemble .getbit [a.toNat, b.toNat] = some ⟨0#32 ++ b ++ a ++ 0x04#32, []⟩ ∧
    assemble .setbit [a.toNat, b.toNat] = some ⟨0#32 ++ b ++ a ++ 0x05#32, []⟩ ∧
    assemble .clearbit [a.toNat, b.toNat] = some ⟨0#32 ++ b ++ a ++ 0x06#32, []⟩ ∧
    assemble .togglebit [a.toNat, b.toNat] = some ⟨0#32 ++ b ++ a ++ 0x07#32, []⟩ ∧
    assemble .popcount [a.toNat] = some ⟨0#32 ++ 0#32 ++ a ++ 0x08#32, []⟩ ∧
    assemble .highestbit [a.toNat] = some ⟨0#32 ++ 0#32 ++ a ++ 0x09#32, []⟩ ∧
    assemble .rotl [a.toNat, b.toNat] = some ⟨0#32 ++ b ++ a ++ 0x0A#32, []⟩ ∧
    assemble .rotr [a.toNat, b.toNat] = some ⟨0#32 ++ b ++ a ++ 0x0B#32, []⟩ ∧
    assemble .countruns [a.toNat, b.toNat] = some ⟨0#32 ++ b ++ a ++ 0x0C#32, []⟩ ∧
    assemble .swapbits [a.toNat, b.toNat, c.toNat] = some ⟨c ++ b ++ a ++ 0x0D#32, []⟩ ∧
    assemble .removebit [a.toNat, b.toNat] = some ⟨0#32 ++ b ++ a ++ 0x0E#32, []⟩ ∧
    assemble .tobinary [a.toNat] = some ⟨0#32 ++ 0#32 ++ a ++ 0x10#32, []⟩) ∧
  (∀ (op : Opcode) (operands : List Nat) (v : Nat), v ∈ operands → 2 ^ 32 ≤ v → assemble op operands = none)

/-- 30_encoding.md R83: "The host substitutes that name's result Word before it sends the beat", at every place among the
operands. That a name without a response, or a number that no earlier line has, sends no beat is the model's choice (log entry
17). -/
def Obligations.NamesStandForTheirResults : Prop :=
  (∀ (bindings : List (Option Response)) (op : Opcode) (before after : List HostOperand) (k : Nat) (w : Word)
      (str : List Ascii), bindings[k]? = some (some (.ok w str)) →
    lineRequest bindings ⟨op, before ++ .boundBy k :: after⟩ =
      lineRequest bindings ⟨op, before ++ .literal w.toNat :: after⟩) ∧
  (∀ (bindings : List (Option Response)) (l : HostLine) (k : Nat),
    HostOperand.boundBy k ∈ l.operands → bindings[k]? = some none → lineRequest bindings l = none) ∧
  (∀ (bindings : List (Option Response)) (l : HostLine) (k : Nat),
    HostOperand.boundBy k ∈ l.operands → bindings.length ≤ k → lineRequest bindings l = none)
end

