-- ==== Sys2Proof/Laws/Decode.lean ====
section
/-! SUPPORT. The fields of a beat made of four words, and what decoding says of a beat. -/

namespace Sys2Proof

@[simp] theorem cmdOf_beatOf (c b a cmd : Word) : cmdOf (beatOf c b a cmd) = cmd := by
  ext i hi
  simp only [cmdOf, beatOf, BitVec.getElem_extractLsb', BitVec.getLsbD_append]
  simp [hi]

@[simp] theorem operandA_beatOf (c b a cmd : Word) : operandA (beatOf c b a cmd) = a := by
  ext i hi
  simp only [operandA, beatOf, BitVec.getElem_extractLsb', BitVec.getLsbD_append]
  simp [hi]

@[simp] theorem operandB_beatOf (c b a cmd : Word) : operandB (beatOf c b a cmd) = b.toNat := by
  have h : (c ++ b ++ a ++ cmd : Beat).extractLsb' 64 32 = b := by
    ext i hi
    simp only [BitVec.getElem_extractLsb', BitVec.getLsbD_append]
    have h1 : ¬ 64 + i < 32 := by omega
    have h2 : ¬ 64 + i - 32 < 32 := by omega
    have h3 : 64 + i - 32 - 32 = i := by omega
    simp [h1, h2, h3, hi]
  simp only [operandB, beatOf, h]

@[simp] theorem operandC_beatOf (c b a cmd : Word) : operandC (beatOf c b a cmd) = c.toNat := by
  have h : (c ++ b ++ a ++ cmd : Beat).extractLsb' 96 32 = c := by
    ext i hi
    simp only [BitVec.getElem_extractLsb', BitVec.getLsbD_append]
    have h1 : ¬ 96 + i < 32 := by omega
    have h2 : ¬ 96 + i - 32 < 32 := by omega
    have h3 : ¬ 96 + i - 32 - 32 < 32 := by omega
    have h4 : 96 + i - 32 - 32 - 32 = i := by omega
    simp [h1, h2, h3, h4, hi]
  simp only [operandC, beatOf, h]

/-- A length is at most `N_MAX` exactly when it fits the B field (00_scope.md R8). -/
@[simp] theorem le_nMax_iff (n : Nat) : n ≤ Config.nMax ↔ n < 2 ^ 32 := by
  simp only [Config.nMax]
  omega

/-- A B or C operand always fits its field. -/
theorem operandB_lt (b : Beat) : operandB b < 2 ^ 32 := (b.extractLsb' 64 32).isLt

theorem operandC_lt (b : Beat) : operandC b < 2 ^ 32 := (b.extractLsb' 96 32).isLt

/-- The command words of the encoder are legal and hold their opcode (30_encoding.md R71). -/
theorem opcodeField_commandWord (op : Opcode) : opcodeField op.commandWord = op.code := by
  cases op <;> decide

theorem reservedField_commandWord (op : Opcode) : reservedField op.commandWord = 0 := by
  cases op <;> decide

theorem ofCode_code (op : Opcode) : Opcode.ofCode op.code = some op := by
  cases op <;> rfl

/-- The opcode numbers are the ones R73 assigns: a number selects `op` exactly when it is `op`'s. -/
theorem ofCode_eq_some (n : Nat) (op : Opcode) : Opcode.ofCode n = some op ↔ n = op.code := by
  constructor
  · intro h
    unfold Opcode.ofCode at h
    split at h <;> first | (cases h; rfl) | exact absurd h (by simp)
  · rintro rfl
    exact ofCode_code op

theorem code_range (op : Opcode) : 1 ≤ op.code ∧ op.code ≤ 16 := by
  cases op <;> decide

/-- A number selects a command exactly when it is 1 to 16 (30_encoding.md R74). -/
theorem ofCode_isSome (n : Nat) : (Opcode.ofCode n).isSome = true ↔ 1 ≤ n ∧ n ≤ 16 := by
  constructor
  · intro h
    obtain ⟨op, hop⟩ := Option.isSome_iff_exists.mp h
    rw [ofCode_eq_some] at hop
    exact hop ▸ code_range op
  · rintro ⟨h1, h2⟩
    interval_cases n <;> rfl

/-- Decoding a beat of four words: what the command word selects, with the words as operands. -/
theorem decode_beatOf (c b a : Word) (op : Opcode) :
    decode (beatOf c b a op.commandWord) = .ok (op.withOperands a b.toNat c.toNat) := by
  simp [decode, reservedField_commandWord, opcodeField_commandWord, ofCode_code]

/-- What a successful decoding says of the beat. -/
theorem decode_eq_ok (x : Beat) (i : Instr) :
    decode x = .ok i ↔ ∃ op : Opcode, reservedField (cmdOf x) = 0 ∧ opcodeField (cmdOf x) = op.code ∧
      i = op.withOperands (operandA x) (operandB x) (operandC x) := by
  unfold decode
  constructor
  · intro h
    split at h
    · cases h
    · rename_i hr
      split at h
      · cases h
      · rename_i op hop
        cases h
        exact ⟨op, by simpa using hr, (ofCode_eq_some _ _).mp hop, rfl⟩
  · rintro ⟨op, hr, hop, rfl⟩
    simp [hr, hop, ofCode_code]

/-- Decoding succeeds exactly on the legal command words (30_encoding.md R74). -/
theorem decode_ok_iff_legal (x : Beat) : (∃ i, decode x = .ok i) ↔ legal (cmdOf x) = true := by
  have hs := ofCode_isSome (opcodeField (cmdOf x))
  constructor
  · rintro ⟨i, h⟩
    obtain ⟨op, hr, hop, -⟩ := (decode_eq_ok x i).mp h
    have := code_range op
    simp [legal, hr, hop, this]
  · intro h
    simp only [legal, Bool.and_eq_true, beq_iff_eq, decide_eq_true_eq] at h
    obtain ⟨op, hop⟩ := Option.isSome_iff_exists.mp (hs.mpr ⟨h.1.2, h.2⟩)
    exact ⟨_, (decode_eq_ok x _).mpr ⟨op, h.1.1, (ofCode_eq_some _ _).mp hop, rfl⟩⟩

/-- Decoding fails exactly on the command words that are not legal. -/
theorem decode_error_iff (x : Beat) : (∃ why, decode x = .error why) ↔ legal (cmdOf x) = false := by
  have h := decode_ok_iff_legal x
  cases hd : decode x with
  | ok i => simp only [hd, Except.ok.injEq, exists_eq', true_iff] at h; simp [h]
  | error why => simp only [hd, reduceCtorEq, exists_false, false_iff] at h; simp [h]

end Sys2Proof
end

