-- ==== Sys2Proof/Laws/Assembler.lean ====
section
/-! SUPPORT. When a line of the host's notation has beats, and what they are. -/

namespace Sys2Proof

/-- A sequence of at most `N_MAX` words has beats (00_scope.md R8). -/
theorem encodeFindUnique_of_fits (elements : List Word) (h : elements.length < 2 ^ 32) :
    encodeFindUnique elements = some ⟨encode (.findunique elements.length), elements.map dataBeat⟩ :=
  if_pos ((le_nMax_iff _).mpr h)

/-- A longer one has none (93 S10). -/
theorem encodeFindUnique_of_too_long (elements : List Word) (h : 2 ^ 32 ≤ elements.length) :
    encodeFindUnique elements = none :=
  if_neg (fun hle => absurd ((le_nMax_iff _).mp hle) (Nat.not_lt.mpr h))

end Sys2Proof

namespace Sys2Proof.Machine

/-- Everything `assemble` can answer: beats exactly when every operand fits its field, there are as many as the command
takes, and the command is well formed. -/
theorem assemble_eq_some (op : Opcode) (operands : List Nat) (r : Request) :
    assemble op operands = some r ↔
      operands.all fitsField = true ∧ ∃ i, commandOf op operands = some i ∧ i.wellFormed = true ∧
        r = ⟨encode i, if op = .findunique then operands.map (fun v => dataBeat (zext32 v)) else []⟩ := by
  unfold assemble
  by_cases hf : operands.all fitsField = true
  · rw [if_pos hf]
    cases hc : commandOf op operands with
    | none => exact ⟨fun h => (nomatch h), fun ⟨_, _, h, _⟩ => (nomatch h)⟩
    | some i =>
      by_cases hw : i.wellFormed = true
      · refine ⟨fun h => ⟨hf, i, rfl, hw, ?_⟩, fun ⟨_, j, hj, _, hr⟩ => ?_⟩
        · exact (Option.some.inj ((if_pos hw).symm.trans h)).symm
        · cases hj
          exact (if_pos hw).trans (congrArg some hr.symm)
      · refine ⟨fun h => ?_, fun ⟨_, j, hj, hj', _⟩ => ?_⟩
        · exact nomatch (if_neg hw).symm.trans h
        · cases hj
          exact absurd hj' hw
  · rw [if_neg hf]
    exact ⟨fun h => (nomatch h), fun h => absurd h.1 hf⟩

/-- An operand that does not fit its field sends no beats. -/
theorem assemble_of_too_large (op : Opcode) (operands : List Nat) (v : Nat) (hm : v ∈ operands) (hv : 2 ^ 32 ≤ v) :
    assemble op operands = none := by
  refine if_neg (fun hf => ?_)
  have hfit := List.all_eq_true.mp hf v hm
  simp only [fitsField, decide_eq_true_eq] at hfit
  omega

/-- A Word always fits a field. -/
theorem fitsField_toNat (w : Word) : fitsField w.toNat = true := decide_eq_true w.isLt

/-- A line with an operand that has no value sends no beats (30_encoding.md R84). -/
theorem lineRequest_of_no_value (bindings : List (Option Response)) (l : HostLine) (o : HostOperand)
    (hm : o ∈ l.operands) (ho : operandValue bindings o = none) : lineRequest bindings l = none := by
  have key : ∀ operands : List HostOperand, o ∈ operands → operands.mapM (operandValue bindings) = none := by
    intro operands
    induction operands with
    | nil => exact fun h => absurd h (by simp)
    | cons x rest ih =>
      intro h
      rw [List.mapM_cons]
      rcases List.mem_cons.mp h with rfl | hr
      · simp [ho]
      · rw [ih hr]
        cases operandValue bindings x <;> rfl
  simp [lineRequest, key l.operands hm]

end Sys2Proof.Machine
end

