-- ==== Sys2Proof/Laws/State.lean ====
section
/-! SUPPORT. One lemma per field of State and per update of it, so that no later proof unfolds a record update. -/

namespace Sys2Proof.Machine

@[simp] theorem beginTransaction_phase (b : Beat) (s : State) : (beginTransaction b s).phase = s.phase := rfl
@[simp] theorem beginTransaction_acc (b : Beat) (s : State) : (beginTransaction b s).acc = s.acc := rfl
@[simp] theorem beginTransaction_remaining (b : Beat) (s : State) : (beginTransaction b s).remaining = s.remaining := rfl
@[simp] theorem beginTransaction_pending (b : Beat) (s : State) : (beginTransaction b s).pending = s.pending := rfl
@[simp] theorem beginTransaction_script (b : Beat) (s : State) : (beginTransaction b s).script = s.script := rfl
@[simp] theorem beginTransaction_offered (b : Beat) (s : State) : (beginTransaction b s).offered = none := rfl
@[simp] theorem beginTransaction_draw (b : Beat) (s : State) : (beginTransaction b s).draw = s.draw := rfl
@[simp] theorem beginTransaction_txn (b : Beat) (s : State) : (beginTransaction b s).txn = some ⟨b, []⟩ := rfl
@[simp] theorem beginTransaction_log (b : Beat) (s : State) : (beginTransaction b s).log = s.log := rfl

@[simp] theorem noteOffer_phase (e : Edge) (s : State) : (noteOffer e s).phase = s.phase := rfl
@[simp] theorem noteOffer_acc (e : Edge) (s : State) : (noteOffer e s).acc = s.acc := rfl
@[simp] theorem noteOffer_remaining (e : Edge) (s : State) : (noteOffer e s).remaining = s.remaining := rfl
@[simp] theorem noteOffer_pending (e : Edge) (s : State) : (noteOffer e s).pending = s.pending := rfl
@[simp] theorem noteOffer_script (e : Edge) (s : State) : (noteOffer e s).script = s.script := rfl
@[simp] theorem noteOffer_offered (e : Edge) (s : State) : (noteOffer e s).offered = if e.reqValid then some e.reqData else none := rfl
@[simp] theorem noteOffer_draw (e : Edge) (s : State) : (noteOffer e s).draw = s.draw := rfl
@[simp] theorem noteOffer_txn (e : Edge) (s : State) : (noteOffer e s).txn = s.txn := rfl
@[simp] theorem noteOffer_log (e : Edge) (s : State) : (noteOffer e s).log = s.log := rfl

@[simp] theorem internalStep_phase (s : State) : (internalStep s).phase = .respond := rfl
@[simp] theorem internalStep_acc (s : State) : (internalStep s).acc = s.acc := rfl
@[simp] theorem internalStep_remaining (s : State) : (internalStep s).remaining = s.remaining := rfl
@[simp] theorem internalStep_pending (s : State) : (internalStep s).pending = s.pending := rfl
@[simp] theorem internalStep_script (s : State) : (internalStep s).script = s.script := rfl
@[simp] theorem internalStep_offered (s : State) : (internalStep s).offered = s.offered := rfl
@[simp] theorem internalStep_draw (s : State) : (internalStep s).draw = s.draw := rfl
@[simp] theorem internalStep_txn (s : State) : (internalStep s).txn = s.txn := rfl
@[simp] theorem internalStep_log (s : State) : (internalStep s).log = s.log := rfl

@[simp] theorem deliver_phase (s : State) : (deliver s).phase = .idle := rfl
@[simp] theorem deliver_acc (s : State) : (deliver s).acc = s.acc := rfl
@[simp] theorem deliver_remaining (s : State) : (deliver s).remaining = s.remaining := rfl
@[simp] theorem deliver_pending (s : State) : (deliver s).pending = s.pending := rfl
@[simp] theorem deliver_script (s : State) : (deliver s).script = s.script := rfl
@[simp] theorem deliver_offered (s : State) : (deliver s).offered = s.offered := rfl
@[simp] theorem deliver_draw (s : State) : (deliver s).draw = s.draw := rfl
@[simp] theorem deliver_txn (s : State) : (deliver s).txn = none := rfl
@[simp] theorem deliver_log (s : State) : (deliver s).log = s.log ++ [⟨s.txn, s.pending⟩] := rfl

@[simp] theorem resetEdge_phase (s : State) : (resetEdge s).phase = .idle := rfl
@[simp] theorem resetEdge_acc (s : State) : (resetEdge s).acc = 0 := rfl
@[simp] theorem resetEdge_remaining (s : State) : (resetEdge s).remaining = 0 := rfl
@[simp] theorem resetEdge_pending (s : State) : (resetEdge s).pending = Config.pendingAfterReset s.draw := rfl
@[simp] theorem resetEdge_script (s : State) : (resetEdge s).script = s.script := rfl
@[simp] theorem resetEdge_offered (s : State) : (resetEdge s).offered = none := rfl
@[simp] theorem resetEdge_draw (s : State) : (resetEdge s).draw = s.draw := rfl
@[simp] theorem resetEdge_txn (s : State) : (resetEdge s).txn = none := rfl
@[simp] theorem resetEdge_log (s : State) : (resetEdge s).log = s.log := rfl

@[simp] theorem advance_phase (s : State) : (advance s).phase = s.phase := rfl
@[simp] theorem advance_acc (s : State) : (advance s).acc = s.acc := rfl
@[simp] theorem advance_remaining (s : State) : (advance s).remaining = s.remaining := rfl
@[simp] theorem advance_pending (s : State) : (advance s).pending = s.pending := rfl
@[simp] theorem advance_script (s : State) : (advance s).script = s.script.tail := rfl
@[simp] theorem advance_offered (s : State) : (advance s).offered = s.offered := rfl
@[simp] theorem advance_draw (s : State) : (advance s).draw = s.draw + 1 := rfl
@[simp] theorem advance_txn (s : State) : (advance s).txn = s.txn := rfl
@[simp] theorem advance_log (s : State) : (advance s).log = s.log := rfl

@[simp] theorem offerNext_phase (b : Beat) (s : State) : (offerNext b s).phase = .idle := rfl
@[simp] theorem offerNext_acc (b : Beat) (s : State) : (offerNext b s).acc = s.acc := rfl
@[simp] theorem offerNext_remaining (b : Beat) (s : State) : (offerNext b s).remaining = s.remaining := rfl
@[simp] theorem offerNext_pending (b : Beat) (s : State) : (offerNext b s).pending = s.pending := rfl
@[simp] theorem offerNext_script (b : Beat) (s : State) : (offerNext b s).script = offerEdge b :: s.script := rfl
@[simp] theorem offerNext_offered (b : Beat) (s : State) : (offerNext b s).offered = none := rfl
@[simp] theorem offerNext_draw (b : Beat) (s : State) : (offerNext b s).draw = s.draw := rfl
@[simp] theorem offerNext_txn (b : Beat) (s : State) : (offerNext b s).txn = none := rfl
@[simp] theorem offerNext_log (b : Beat) (s : State) : (offerNext b s).log = s.log := rfl

/-! `collectBeat` changes these fields whether or not the beat is the last. -/

@[simp] theorem collectBeat_acc (b : Beat) (s : State) : (collectBeat b s).acc = s.acc ^^^ operandA b := by
  simp only [collectBeat]; split <;> rfl
@[simp] theorem collectBeat_remaining (b : Beat) (s : State) : (collectBeat b s).remaining = s.remaining - 1 := by
  simp only [collectBeat]; split <;> rfl
@[simp] theorem collectBeat_script (b : Beat) (s : State) : (collectBeat b s).script = s.script := by
  simp only [collectBeat]; split <;> rfl
@[simp] theorem collectBeat_offered (b : Beat) (s : State) : (collectBeat b s).offered = none := by
  simp only [collectBeat]; split <;> rfl
@[simp] theorem collectBeat_draw (b : Beat) (s : State) : (collectBeat b s).draw = s.draw := by
  simp only [collectBeat]; split <;> rfl
@[simp] theorem collectBeat_txn (b : Beat) (s : State) : (collectBeat b s).txn = s.txn.map (fun r => addData r b) := by
  simp only [collectBeat]; split <;> rfl
@[simp] theorem collectBeat_log (b : Beat) (s : State) : (collectBeat b s).log = s.log := by
  simp only [collectBeat]; split <;> rfl

/-- The last expected beat makes the unit BUSY, any other leaves it in its phase (10_state.md R38). -/
@[simp] theorem collectBeat_phase (b : Beat) (s : State) :
    (collectBeat b s).phase = if s.remaining - 1 = 0 then .busy else s.phase := by
  simp only [collectBeat]; split <;> rfl

/-- The last expected beat makes the fold the pending response (10_state.md R38). -/
@[simp] theorem collectBeat_pending (b : Beat) (s : State) :
    (collectBeat b s).pending = if s.remaining - 1 = 0 then .ok (s.acc ^^^ operandA b) [] else s.pending := by
  simp only [collectBeat]; split <;> rfl

@[simp] theorem addData_first (r : Request) (b : Beat) : (addData r b).first = r.first := rfl
@[simp] theorem addData_data (r : Request) (b : Beat) : (addData r b).data = r.data ++ [b] := rfl

end Sys2Proof.Machine
end

