-- ==== Sys2Proof/Laws/Ops.lean ====
section
/-! SUPPORT. One lemma per shared operation that says everything it can do, and the inversion of a command and of an edge. -/

namespace Sys2Proof.Machine

/-! ### Shifts and masks, bit by bit -/

theorem shl_of_lt {n : Nat} (a : Word) (h : n < 32) : shl a n = a <<< n := by
  simp [shl, Config.W, h]

theorem shr_of_lt {n : Nat} (a : Word) (h : n < 32) : shr a n = a >>> n := by
  simp [shr, Config.W, h]

@[simp] theorem indexInRange_eq (index : Nat) : indexInRange index = decide (index < 32) := rfl

/-- `singleBitF(i)` is the Word with only bit i set (R100). -/
theorem getLsbD_singleBitF {i : Nat} (h : i < 32) (k : Nat) : (singleBitF i).getLsbD k = decide (k = i) := by
  have h1 : (1 : Word).getLsbD (k - i) = decide (k - i = 0) := by
    simp [BitVec.getLsbD_one]
  rw [singleBitF, shl_of_lt 1 h, BitVec.getLsbD_shiftLeft, h1]
  by_cases hk : k = i
  · simp [hk, h]
  · have : (!decide (k < i) && decide (k - i = 0)) = false := by
      simp only [Bool.and_eq_false_iff, Bool.not_eq_false', decide_eq_true_eq, decide_eq_false_iff_not]
      omega
    rw [Bool.and_assoc, this]
    simp [hk]

/-- `2^n - 1`, the value the spec derives for `runMaskF(n)` (R103). -/
theorem runMaskF_toNat {n : Nat} (h : n ≤ 32) : (runMaskF n).toNat = 2 ^ n - 1 := by
  interval_cases n <;> decide

/-- `runMaskF(n)` has exactly the lowest n bits set (R103). -/
theorem getLsbD_runMaskF {n : Nat} (h : n ≤ 32) (k : Nat) : (runMaskF n).getLsbD k = decide (k < n) := by
  rw [BitVec.getLsbD, runMaskF_toNat h, Nat.testBit_two_pow_sub_one]

/-! ### Ending a command -/

/-- Whatever a command answers, the response is pending, the unit is BUSY, and nothing else has changed. -/
theorem conclude_eq (r : Response) (s : State) : conclude r s = .next { s with pending := r, phase := .busy } := by
  cases r <;> rfl

/-- Every command but FINDUNIQUE concludes with its response at once. -/
theorem exec_eq_conclude (i : Instr) (s : State) (h : ∀ n, i ≠ .findunique n) :
    exec i s = conclude (commandResponse i []) s ∧ ∀ elements, commandResponse i elements = commandResponse i [] := by
  cases i with
  | findunique n => exact absurd rfl (h n)
  | _ => exact ⟨rfl, fun _ => rfl⟩

/-- Everything a command can do: open a FINDUNIQUE collection, or make its response pending. -/
theorem exec_cases (i : Instr) (s : State) :
    (∃ n, i = .findunique n ∧ n ≠ 0 ∧ exec i s = .next { s with acc := 0, remaining := n, phase := .collect }) ∨
    (exec i s = .next { s with pending := commandResponse i [], phase := .busy } ∧
      ∀ elements, commandResponse i elements = commandResponse i []) := by
  by_cases hi : ∃ n, i = .findunique n
  · obtain ⟨n, rfl⟩ := hi
    by_cases h : n = 0
    · subst h
      exact .inr ⟨rfl, fun _ => rfl⟩
    · exact .inl ⟨n, rfl, h, by simp [exec, execFindunique, startCollect, h]⟩
  · obtain ⟨he, hr⟩ := exec_eq_conclude i s (fun n hn => hi ⟨n, hn⟩)
    exact .inr ⟨by rw [he, conclude_eq], hr⟩

/-! ### The edges -/

/-- The hold is kept exactly when the host owes nothing or offers the beat it owes (R345). -/
theorem keepsHold_iff (e : Edge) (s : State) :
    keepsHold e s = true ↔ ∀ b, s.offered = some b → e.reqValid = true ∧ e.reqData = b := by
  unfold keepsHold
  split
  · simp [*]
  · rename_i b h
    simp [h]

/-- Everything the transfer of a first beat to an idle unit can do (10_state.md R38). -/
theorem acceptCommand_cases (b : Beat) (s : State) :
    (∃ n, decode b = .ok (.findunique n) ∧ n ≠ 0 ∧ acceptCommand b s =
      .next { s with offered := none, txn := some ⟨b, []⟩, acc := 0, remaining := n, phase := .collect }) ∨
    ((∀ n, decode b = .ok (.findunique n) → n = 0) ∧ acceptCommand b s =
      .next { s with offered := none, txn := some ⟨b, []⟩, pending := execRequest ⟨b, []⟩, phase := .busy }) := by
  unfold acceptCommand
  cases hd : decode b with
  | error why => exact .inr ⟨by simp, by simp [raise, execRequest, hd, beginTransaction]⟩
  | ok i =>
    obtain ⟨n, rfl, hn, he⟩ | ⟨he, -⟩ := exec_cases i (beginTransaction b s)
    · exact .inl ⟨n, rfl, hn, he⟩
    · refine .inr ⟨?_, ?_⟩
      · rintro n h
        cases h
        by_contra hn
        simp [exec, execFindunique, startCollect, hn] at he
      · simpa [execRequest, hd, beginTransaction] using he

/-- The five ways an edge goes on, and the one way it has no meaning (10_state.md R38, 70_reset_and_hazards.md R340 to
R348). `s` is the state that has used up the edge. -/
theorem clockEdge_cases (e : Edge) (s : State) :
    (e.rst = true ∧ clockEdge e s = .next (resetEdge s)) ∨
    (e.rst = false ∧ keepsHold e s = false ∧ clockEdge e s = .refused .requestHoldBroken) ∨
    (e.rst = false ∧ keepsHold e s = true ∧ clockEdge e s = channelEdge e s) := by
  unfold clockEdge
  cases h : e.rst <;> cases hk : keepsHold e s <;> simp

/-- The step of a state whose coming edge is known. -/
theorem step_cons {s : State} {e : Edge} {rest : List Edge} (h : s.script = e :: rest) :
    step s = clockEdge e { s with script := rest, draw := s.draw + 1 } := by
  simp [step, currentEdge, advance, h]

/-- The step of a state whose host's inputs are used up. -/
theorem step_nil {s : State} (h : s.script = []) :
    step s = clockEdge (quietEdge s) { s with draw := s.draw + 1 } := by
  have hs : advance s = { s with draw := s.draw + 1 } := by simp [advance, h]
  simp [step, currentEdge, h, hs]

/-- The transaction length is 1 unless the beat is a FINDUNIQUE (30_encoding.md R78). -/
theorem transactionLength_of_decode (x : Beat) :
    (∀ n, decode x = .ok (.findunique n) → transactionLength x = 1 + n) ∧
    ((∀ n, decode x ≠ .ok (.findunique n)) → transactionLength x = 1) := by
  constructor
  · intro n h
    have hl : legal (cmdOf x) = true := (decode_ok_iff_legal x).mp ⟨_, h⟩
    obtain ⟨op, -, hop, hi⟩ := (decode_eq_ok x _).mp h
    cases op <;> simp_all [Opcode.withOperands, transactionLength, Opcode.code]
  · intro h
    unfold transactionLength
    split
    · rename_i hc
      obtain ⟨i, hi⟩ := (decode_ok_iff_legal x).mpr hc.1
      obtain ⟨op, -, hop, rfl⟩ := (decode_eq_ok x _).mp hi
      rw [hc.2] at hop
      cases op <;> simp_all [Opcode.withOperands, Opcode.code]
    · rfl

/-- A request is whole when it has as many beats as its first beat tells (30_encoding.md R78). -/
theorem complete_iff (r : Request) : r.complete = true ↔ 1 + r.data.length = transactionLength r.first := by
  simp [Request.complete]

/-! ### Runs -/

theorem runEdges_succ {s t : State} (k : Nat) (h : step s = .next t) : runEdges (k + 1) s = runEdges k t := by
  simp [runEdges, h]

/-- A run in two parts. -/
theorem runEdges_add {s t : State} (j k : Nat) (h : runEdges j s = .next t) : runEdges (j + k) s = runEdges k t := by
  induction j generalizing s with
  | zero =>
    simp only [runEdges, Host.Outcome.next.injEq] at h
    simp [h]
  | succ j ih =>
    cases hs : step s with
    | next u => rw [Nat.succ_add, runEdges_succ _ hs]; exact ih (by rwa [runEdges_succ _ hs] at h)
    | fault f => simp [runEdges, hs] at h
    | refused why => simp [runEdges, hs] at h

end Sys2Proof.Machine
end

