-- ==== Sys2Proof/Laws/PerInstr.lean ====
section
/-! SUPPORT. Facts about every command as syntax, one lemma per constructor. -/

namespace Sys2Proof.Laws.EncodesLegal

/-- The encoder writes a legal command word for the command, whatever its operands (30_encoding.md R71, R74). -/
def Statement (i : Instr) : Prop := legal (cmdOf (encode i)) = true

end Sys2Proof.Laws.EncodesLegal

namespace Sys2Proof.Laws

/-- A command word of the encoder is legal. -/
theorem legal_commandWord (op : Opcode) : legal op.commandWord = true := by
  cases op <;> decide

end Sys2Proof.Laws

namespace Sys2Proof.Laws.EncodesLegal

theorem singlebit (index : Nat) : Statement (.singlebit index) := by
  simp [Statement, encode, legal_commandWord]

theorem runmask (count : Nat) : Statement (.runmask count) := by
  simp [Statement, encode, legal_commandWord]

theorem rangemask (lowIndex highIndex : Nat) : Statement (.rangemask lowIndex highIndex) := by
  simp [Statement, encode, legal_commandWord]

theorem getbit (word : Word) (index : Nat) : Statement (.getbit word index) := by
  simp [Statement, encode, legal_commandWord]

theorem setbit (word : Word) (index : Nat) : Statement (.setbit word index) := by
  simp [Statement, encode, legal_commandWord]

theorem clearbit (word : Word) (index : Nat) : Statement (.clearbit word index) := by
  simp [Statement, encode, legal_commandWord]

theorem togglebit (word : Word) (index : Nat) : Statement (.togglebit word index) := by
  simp [Statement, encode, legal_commandWord]

theorem popcount (word : Word) : Statement (.popcount word) := by
  simp [Statement, encode, legal_commandWord]

theorem highestbit (word : Word) : Statement (.highestbit word) := by
  simp [Statement, encode, legal_commandWord]

theorem rotl (word : Word) (count : Nat) : Statement (.rotl word count) := by
  simp [Statement, encode, legal_commandWord]

theorem rotr (word : Word) (count : Nat) : Statement (.rotr word count) := by
  simp [Statement, encode, legal_commandWord]

theorem countruns (word : Word) (runLength : Nat) : Statement (.countruns word runLength) := by
  simp [Statement, encode, legal_commandWord]

theorem swapbits (word : Word) (indexA indexB : Nat) : Statement (.swapbits word indexA indexB) := by
  simp [Statement, encode, legal_commandWord]

theorem removebit (word : Word) (index : Nat) : Statement (.removebit word index) := by
  simp [Statement, encode, legal_commandWord]

theorem findunique (length : Nat) : Statement (.findunique length) := by
  simp [Statement, encode, legal_commandWord]

theorem tobinary (word : Word) : Statement (.tobinary word) := by
  simp [Statement, encode, legal_commandWord]

end Sys2Proof.Laws.EncodesLegal
end

