-- ==== Sys2Proof/Laws/Values.lean ====
section
/-! SUPPORT. One lemma per value function of the commands: what it computes, bit by bit or as a count. -/

namespace Sys2Proof.Machine

/-! ### Counts -/

theorem countP_range_eq_card (p : Nat → Bool) (n : Nat) :
    (List.range n).countP p = ((Finset.range n).filter (fun i => p i = true)).card := by
  induction n with
  | zero => simp
  | succ n ih =>
    rw [List.range_succ, List.countP_append, ih, Finset.range_add_one, Finset.filter_insert]
    by_cases h : p n = true <;> simp [h]

/-- R140, as the size of the set of positions that hold a 1. -/
theorem countOnes_eq_card (w : Word) :
    countOnes w = ((Finset.range 32).filter (fun i => w.getLsbD i = true)).card := countP_range_eq_card _ 32

theorem countOnes_le (w : Word) : countOnes w ≤ 32 :=
  List.countP_le_length.trans (by simp [positions, Config.W])

theorem zext32_toNat {n : Nat} (h : n < 2 ^ 32) : (zext32 n).toNat = n := by
  rw [zext32, BitVec.toNat_ofNat, Nat.mod_eq_of_lt h]

/-! ### Bits -/

/-- The lowest bit of a word shifted right by an index in range. -/
theorem shr_and_one (w : Word) {i : Nat} (h : i < 32) : shr w i &&& 1 = if w.getLsbD i then 1 else 0 := by
  rw [shr_of_lt w h]
  ext k hk
  by_cases hk0 : k = 0
  · subst hk0
    cases hb : w.getLsbD i <;> simp [hb]
  · simp only [BitVec.getElem_and, BitVec.getElem_ushiftRight]
    cases w.getLsbD i <;> simp [hk0]

/-- R160: the highest set bit. -/
theorem find_top_range (w : Word) (p n : Nat) :
    (List.range n).reverse.find? (bitAt w) = some p ↔
      p < n ∧ w.getLsbD p = true ∧ ∀ k, p < k → k < n → w.getLsbD k = false := by
  induction n with
  | zero => simp
  | succ n ih =>
    rw [List.range_succ, List.reverse_append, List.reverse_singleton, List.singleton_append, List.find?_cons]
    cases hb : bitAt w n with
    | true =>
      simp only [Option.some.injEq]
      constructor
      · rintro rfl
        exact ⟨by omega, hb, fun k h1 h2 => by omega⟩
      · rintro ⟨h1, -, h3⟩
        by_contra hne
        exact absurd hb (by simp [bitAt, h3 n (by omega) (by omega)])
    | false =>
      simp only [ih]
      constructor
      · rintro ⟨h1, h2, h3⟩
        refine ⟨by omega, h2, fun k hk1 hk2 => ?_⟩
        by_cases hk : k = n
        · exact hk ▸ hb
        · exact h3 k hk1 (by omega)
      · rintro ⟨h1, h2, h3⟩
        have hne : p ≠ n := fun h => by simp [bitAt, ← h, h2] at hb
        exact ⟨by omega, h2, fun k hk1 hk2 => h3 k hk1 (by omega)⟩

theorem highestBitIndex_eq_some (w : Word) (p : Nat) :
    highestBitIndex w = some p ↔ w.getLsbD p = true ∧ ∀ k, p < k → w.getLsbD k = false := by
  rw [highestBitIndex, positions, find_top_range]
  constructor
  · rintro ⟨-, h2, h3⟩
    refine ⟨h2, fun k hk => ?_⟩
    by_cases hk2 : k < 32
    · exact h3 k hk hk2
    · exact BitVec.getLsbD_of_ge w k (by omega)
  · rintro ⟨h1, h2⟩
    exact ⟨BitVec.lt_of_getLsbD h1, h1, fun k hk _ => h2 k hk⟩

theorem highestBitIndex_eq_none (w : Word) : highestBitIndex w = none ↔ w = 0 := by
  rw [highestBitIndex, positions, List.find?_eq_none]
  constructor
  · intro h
    apply BitVec.eq_of_getLsbD_eq
    intro i hi
    simpa [bitAt] using h i (by simp [Config.W]; omega)
  · rintro rfl
    simp [bitAt]

/-- R180: bit k moves to position `(k + count) mod 32`. -/
theorem getLsbD_rotateLeft (w : Word) (c : Nat) {k : Nat} (hk : k < 32) :
    (rotateLeft w c).getLsbD ((k + c) % 32) = w.getLsbD k := by
  unfold rotateLeft
  simp only [Config.W]
  split
  · congr 1
    omega
  · rename_i h
    rw [shl_of_lt _ (by omega), shr_of_lt _ (by omega), BitVec.getLsbD_or, BitVec.getLsbD_shiftLeft,
      BitVec.getLsbD_ushiftRight]
    by_cases hc : k + c % 32 < 32
    · have e1 : (k + c) % 32 = k + c % 32 := by omega
      have e2 : w.getLsbD (32 - c % 32 + (k + c % 32)) = false := BitVec.getLsbD_of_ge _ _ (by omega)
      rw [e1, e2]
      simp [hc]
    · have e1 : (k + c) % 32 = k + c % 32 - 32 := by omega
      have e2 : 32 - c % 32 + (k + c % 32 - 32) = k := by omega
      have e3 : k + c % 32 - 32 < c % 32 := by omega
      rw [e1, e2]
      simp [e3]

/-- R182: bit k comes from position `(k + count) mod 32`. -/
theorem getLsbD_rotateRight (w : Word) (c : Nat) {k : Nat} (hk : k < 32) :
    (rotateRight w c).getLsbD k = w.getLsbD ((k + c) % 32) := by
  unfold rotateRight
  simp only [Config.W]
  split
  · congr 1
    omega
  · rename_i h
    rw [shr_of_lt _ (by omega), shl_of_lt _ (by omega), BitVec.getLsbD_or, BitVec.getLsbD_shiftLeft,
      BitVec.getLsbD_ushiftRight]
    by_cases hc : k + c % 32 < 32
    · have e1 : (k + c) % 32 = c % 32 + k := by omega
      have e2 : k < 32 - c % 32 := by omega
      rw [e1]
      simp [e2]
    · have e1 : (k + c) % 32 = k - (32 - c % 32) := by omega
      have e2 : w.getLsbD (c % 32 + k) = false := BitVec.getLsbD_of_ge _ _ (by omega)
      have e3 : ¬ k < 32 - c % 32 := by omega
      rw [e1, e2]
      simp [hk, e3]

/-- R200: the window at p matches exactly when its bits are all ones. -/
theorem windowMatches_iff (w : Word) {n p : Nat} (hn : n ≤ 32) (hp : p < 32) :
    windowMatches w (runMaskF n) p = true ↔ ∀ j < n, w.getLsbD (p + j) = true := by
  rw [windowMatches, shr_of_lt _ hp, beq_iff_eq]
  constructor
  · intro h j hj
    have := congrArg (fun x => x.getLsbD j) h
    simpa [getLsbD_runMaskF hn, hj] using this
  · intro h
    apply BitVec.eq_of_getLsbD_eq
    intro i _
    rw [BitVec.getLsbD_and, getLsbD_runMaskF hn, BitVec.getLsbD_ushiftRight]
    by_cases hi : i < n
    · simp [hi, h i hi]
    · simp [hi]

/-- R220: the bits at i and j are exchanged. -/
theorem getLsbD_swapBits (w : Word) {i j : Nat} (hi : i < 32) (hj : j < 32) (k : Nat) :
    (swapBits w i j).getLsbD k = w.getLsbD (if k = i then j else if k = j then i else k) := by
  unfold swapBits
  split
  · rename_i h
    subst h
    split <;> simp_all
  · rename_i h
    simp only [shr_and_one w hi, shr_and_one w hj, BitVec.getLsbD_xor]
    by_cases h1 : k = i
    · subst h1
      cases ha : w.getLsbD k <;> cases hb : w.getLsbD j <;>
        simp [getLsbD_singleBitF hi, getLsbD_singleBitF hj, hb, h]
    · by_cases h2 : k = j
      · subst h2
        cases ha : w.getLsbD k <;> cases hb : w.getLsbD i <;>
          simp [getLsbD_singleBitF hi, getLsbD_singleBitF hj, h1, hb]
      · cases ha : w.getLsbD i <;> cases hb : w.getLsbD j <;>
          simp [getLsbD_singleBitF hi, getLsbD_singleBitF hj, h1, h2]

/-- R223: bits below the index stay, bits above it move down one. -/
theorem getLsbD_removeBit (w : Word) {i k : Nat} (hi : i < 32) (hk : k < 32) :
    (removeBit w i).getLsbD k = if k < i then w.getLsbD k else w.getLsbD (k + 1) := by
  unfold removeBit
  simp only [Config.W, BitVec.getLsbD_or, BitVec.getLsbD_and, getLsbD_runMaskF (show i ≤ 32 by omega)]
  split
  · split <;> rename_i h2
    · simp [h2]
    · have : k = 31 := by omega
      subst this
      simp [h2]
  · rename_i h
    rw [shr_of_lt _ (by omega), shl_of_lt _ hi, BitVec.getLsbD_shiftLeft, BitVec.getLsbD_ushiftRight]
    split <;> rename_i h2
    · simp [h2]
    · have : i + 1 + (k - i) = k + 1 := by omega
      simp [h2, hk, this]

/-! ### Strings and folds -/

/-- R260: a nonzero word's string has one digit for each position up to its highest set bit. -/
theorem binaryString_eq {w : Word} {p : Nat} (h : highestBitIndex w = some p) :
    binaryString w = (List.range (p + 1)).reverse.map (fun i => digit (bitAt w i)) := by
  simp [binaryString, h]

/-- The string is never longer than the string port (48_binary_renderer.md R261). -/
theorem binaryString_length_le (w : Word) : (binaryString w).length ≤ 32 := by
  cases h : highestBitIndex w with
  | none => simp [binaryString, h]
  | some p =>
    have := BitVec.lt_of_getLsbD ((highestBitIndex_eq_some w p).mp h).1
    simp only [binaryString_eq h, List.length_map, List.length_reverse, List.length_range]
    omega

/-- R38: the fold takes one more element at its end. -/
theorem xorFold_append (a : Word) (elements : List Word) (d : Word) :
    xorFold a (elements ++ [d]) = xorFold a elements ^^^ d := by
  simp [xorFold]

theorem xorFold_start (a : Word) (elements : List Word) : xorFold a elements = a ^^^ xorFold 0 elements := by
  induction elements generalizing a with
  | nil => simp [xorFold]
  | cons x rest ih =>
    have h1 := ih (a ^^^ x)
    have h2 := ih (0 ^^^ x)
    simp only [xorFold, List.foldl_cons] at h1 h2 ⊢
    rw [h1, h2]
    simp [BitVec.xor_assoc]

/-! ### Edges -/

/-- An edge without reset on which the host keeps its hold always goes on (10_state.md R38). -/
theorem channelEdge_next (e : Edge) (s : State) : ∃ t, channelEdge e s = .next t := by
  unfold channelEdge
  split
  · split
    · obtain ⟨_, _, _, h⟩ | ⟨_, h⟩ := acceptCommand_cases e.reqData s <;> exact ⟨_, h⟩
    · exact ⟨_, rfl⟩
  · split <;> exact ⟨_, rfl⟩
  · exact ⟨_, rfl⟩
  · exact ⟨_, rfl⟩

end Sys2Proof.Machine
end

