-- ==== Sys2Proof/Tests/Slice0.lean ====
section
/-! SUPPORT. Tests with expected results written out from the spec (95_test_vectors.md, the rules' examples, 30_encoding.md
R71 to R73), and for each statement with hypotheses a state and operands that meet all of them. -/

namespace Sys2Proof.Tests

open Sys2Proof.Machine

/-! ### Well-formedness: each check refuses an ill-formed term -/

theorem test_wf_singlebit : (Instr.singlebit (2 ^ 32)).wellFormed = false := by decide
theorem test_wf_runmask : (Instr.runmask (2 ^ 32)).wellFormed = false := by decide
theorem test_wf_rangemask_low : (Instr.rangemask (2 ^ 32) 0).wellFormed = false := by decide
theorem test_wf_rangemask_high : (Instr.rangemask 0 (2 ^ 32)).wellFormed = false := by decide
theorem test_wf_getbit : (Instr.getbit 0 (2 ^ 32)).wellFormed = false := by decide
theorem test_wf_setbit : (Instr.setbit 0 (2 ^ 32)).wellFormed = false := by decide
theorem test_wf_clearbit : (Instr.clearbit 0 (2 ^ 32)).wellFormed = false := by decide
theorem test_wf_togglebit : (Instr.togglebit 0 (2 ^ 32)).wellFormed = false := by decide
theorem test_wf_rotl : (Instr.rotl 0 (2 ^ 32)).wellFormed = false := by decide
theorem test_wf_rotr : (Instr.rotr 0 (2 ^ 32)).wellFormed = false := by decide
theorem test_wf_countruns : (Instr.countruns 0 (2 ^ 32)).wellFormed = false := by decide
theorem test_wf_swapbits_a : (Instr.swapbits 0 (2 ^ 32) 0).wellFormed = false := by decide
theorem test_wf_swapbits_b : (Instr.swapbits 0 0 (2 ^ 32)).wellFormed = false := by decide
theorem test_wf_removebit : (Instr.removebit 0 (2 ^ 32)).wellFormed = false := by decide
theorem test_wf_findunique : (Instr.findunique (2 ^ 32)).wellFormed = false := by decide
theorem test_wf_largest : (Instr.swapbits 0 (2 ^ 32 - 1) (2 ^ 32 - 1)).wellFormed = true := by decide

/-! ### Decoding: `C_B_A_cmd`, the command word bit by bit (reserved bits, then the five opcode bits) -/

theorem test_decode_singlebit : decode (0xFFFFFFFF#32 ++ 0x0000001F#32 ++ 0xFFFFFFFF#32 ++
    (0b000000000000000000000000000#27 ++ 0b00001#5)) = .ok (.singlebit 31) := by rfl
theorem test_decode_runmask : decode (0#32 ++ 0x00000020#32 ++ 0#32 ++
    (0b000000000000000000000000000#27 ++ 0b00010#5)) = .ok (.runmask 32) := by rfl
theorem test_decode_rangemask : decode (0x00000007#32 ++ 0x00000004#32 ++ 0x12345678#32 ++
    (0b000000000000000000000000000#27 ++ 0b00011#5)) = .ok (.rangemask 4 7) := by rfl
theorem test_decode_getbit : decode (0#32 ++ 0x0000001F#32 ++ 0x80000001#32 ++
    (0b000000000000000000000000000#27 ++ 0b00100#5)) = .ok (.getbit 0x80000001 31) := by rfl
theorem test_decode_setbit : decode (0xDEADBEEF#32 ++ 0x00000003#32 ++ 0x12345678#32 ++
    (0b000000000000000000000000000#27 ++ 0b00101#5)) = .ok (.setbit 0x12345678 3) := by rfl
theorem test_decode_clearbit : decode (0#32 ++ 0x00000003#32 ++ 0x12345678#32 ++
    (0b000000000000000000000000000#27 ++ 0b00110#5)) = .ok (.clearbit 0x12345678 3) := by rfl
theorem test_decode_togglebit : decode (0#32 ++ 0x00000004#32 ++ 0x12345678#32 ++
    (0b000000000000000000000000000#27 ++ 0b00111#5)) = .ok (.togglebit 0x12345678 4) := by rfl
theorem test_decode_popcount : decode (0x00000009#32 ++ 0x00000007#32 ++ 0x00000116#32 ++
    (0b000000000000000000000000000#27 ++ 0b01000#5)) = .ok (.popcount 0x116) := by rfl
theorem test_decode_highestbit : decode (0#32 ++ 0#32 ++ 0x12345678#32 ++
    (0b000000000000000000000000000#27 ++ 0b01001#5)) = .ok (.highestbit 0x12345678) := by rfl
theorem test_decode_rotl : decode (0#32 ++ 0xFFFFFFFF#32 ++ 0x12345678#32 ++
    (0b000000000000000000000000000#27 ++ 0b01010#5)) = .ok (.rotl 0x12345678 0xFFFFFFFF) := by rfl
theorem test_decode_rotr : decode (0#32 ++ 0x00000024#32 ++ 0x12345678#32 ++
    (0b000000000000000000000000000#27 ++ 0b01011#5)) = .ok (.rotr 0x12345678 36) := by rfl
theorem test_decode_countruns : decode (0#32 ++ 0x00000002#32 ++ 0x0000004E#32 ++
    (0b000000000000000000000000000#27 ++ 0b01100#5)) = .ok (.countruns 0x4E 2) := by rfl
theorem test_decode_swapbits : decode (0x00000003#32 ++ 0x00000000#32 ++ 0x12345678#32 ++
    (0b000000000000000000000000000#27 ++ 0b01101#5)) = .ok (.swapbits 0x12345678 0 3) := by rfl
theorem test_decode_removebit : decode (0#32 ++ 0x00000001#32 ++ 0x00000023#32 ++
    (0b000000000000000000000000000#27 ++ 0b01110#5)) = .ok (.removebit 0x23 1) := by rfl
theorem test_decode_findunique : decode (0#32 ++ 0x00000005#32 ++ 0#32 ++
    (0b000000000000000000000000000#27 ++ 0b01111#5)) = .ok (.findunique 5) := by rfl
theorem test_decode_tobinary : decode (0xFFFFFFFF#32 ++ 0xFFFFFFFF#32 ++ 0x00000023#32 ++
    (0b000000000000000000000000000#27 ++ 0b10000#5)) = .ok (.tobinary 0x23) := by rfl

/-- Opcode 0x00, so that an all-zero beat is refused (R79). -/
theorem test_decode_zero : decode 0x00000000000000000000000000000000#128 = .error .opcodeUnassigned := by rfl
theorem test_decode_0x11 : decode 0x00000000000000000000000000000011#128 = .error .opcodeUnassigned := by rfl
theorem test_decode_0x1F : decode 0x0000000000000000000000000000001F#128 = .error .opcodeUnassigned := by rfl
theorem test_decode_reserved : decode 0x00000000000000031234567800000105#128 = .error .reservedBitsSet := by rfl
theorem test_decode_reserved_top : decode 0x00000000000000200000000080000001#128 = .error .reservedBitsSet := by rfl

/-- SETBIT 0x12345678, 3 is written as the beat of R72's example. -/
theorem test_encode_setbit : encode (.setbit 0x12345678 3) = 0x00000000000000031234567800000005#128 := by rfl
theorem test_encode_rangemask : encode (.rangemask 4 7) = 0x00000007000000040000000000000003#128 := by rfl

/-- A word of the opcode table, numbered as the table numbers it. -/
theorem test_table_word : decodeTableWord 32 0x0000000D = some (.swapbits 0 0 0) := by rfl

/-! ### Commands: the phase and the pending response after exec from reset -/

/-- What a command leaves pending, with the phase, from the reset state. -/
def outcome (i : Instr) : Option (Phase × Response) :=
  match exec i State.reset with
  | .next t => some (t.phase, t.pending)
  | _ => none

theorem test_singlebit_top : outcome (.singlebit 31) = some (.busy, .ok 0x80000000 []) := by decide
theorem test_singlebit_range : outcome (.singlebit 32) = some (.busy, .err .indexOutOfRange) := by decide
theorem test_runmask_full : outcome (.runmask 32) = some (.busy, .ok 0xFFFFFFFF []) := by decide
theorem test_runmask_range : outcome (.runmask 33) = some (.busy, .err .invalidRunLength) := by decide
theorem test_rangemask_top : outcome (.rangemask 31 31) = some (.busy, .ok 0x80000000 []) := by decide
theorem test_rangemask_order : outcome (.rangemask 7 4) = some (.busy, .err .indexOutOfRange) := by decide
theorem test_getbit_top : outcome (.getbit 0x80000001 31) = some (.busy, .ok 1 []) := by decide
theorem test_getbit_range : outcome (.getbit 0 32) = some (.busy, .err .indexOutOfRange) := by decide
theorem test_setbit_top : outcome (.setbit 0 31) = some (.busy, .ok 0x80000000 []) := by decide
theorem test_setbit_range : outcome (.setbit 1 32) = some (.busy, .err .indexOutOfRange) := by decide
theorem test_clearbit_top : outcome (.clearbit 0xFFFFFFFF 31) = some (.busy, .ok 0x7FFFFFFF []) := by decide
theorem test_clearbit_range : outcome (.clearbit 1 32) = some (.busy, .err .indexOutOfRange) := by decide
theorem test_togglebit_top : outcome (.togglebit 0x80000000 31) = some (.busy, .ok 0 []) := by decide
theorem test_togglebit_range : outcome (.togglebit 1 99) = some (.busy, .err .indexOutOfRange) := by decide
theorem test_popcount_example : outcome (.popcount 0x12345678) = some (.busy, .ok 13 []) := by decide
theorem test_popcount_full : outcome (.popcount 0xFFFFFFFF) = some (.busy, .ok 32 []) := by decide
theorem test_highestbit_example : outcome (.highestbit 0x12345678) = some (.busy, .ok 28 []) := by decide
theorem test_highestbit_zero : outcome (.highestbit 0) = some (.busy, .err .emptyInput) := by decide
theorem test_rotl_wraps : outcome (.rotl 0x12345678 0x24) = some (.busy, .ok 0x23456781 []) := by decide
theorem test_rotl_width : outcome (.rotl 0x12345678 32) = some (.busy, .ok 0x12345678 []) := by decide
theorem test_rotr_wraps : outcome (.rotr 0x80000001 1) = some (.busy, .ok 0xC0000000 []) := by decide
theorem test_rotr_largest : outcome (.rotr 0x12345678 0xFFFFFFFF) = some (.busy, .ok 0x2468ACF0 []) := by decide
theorem test_countruns_overlap : outcome (.countruns 0xFFFFFFFF 16) = some (.busy, .ok 17 []) := by decide
theorem test_countruns_zero : outcome (.countruns 0x4E 0) = some (.busy, .err .invalidRunLength) := by decide
theorem test_swapbits_example : outcome (.swapbits 0x12345678 0 3) = some (.busy, .ok 0x12345671 []) := by decide
theorem test_swapbits_equal_out_of_range :
    outcome (.swapbits 0x12345678 32 32) = some (.busy, .err .indexOutOfRange) := by decide
theorem test_removebit_example : outcome (.removebit 0x12345678 4) = some (.busy, .ok 0x091A2B38 []) := by decide
theorem test_removebit_top : outcome (.removebit 0xFFFFFFFF 31) = some (.busy, .ok 0x7FFFFFFF []) := by decide
theorem test_findunique_empty : outcome (.findunique 0) = some (.busy, .err .emptyInput) := by decide
theorem test_findunique_opens : outcome (.findunique 5) = some (.collect, .ok 0 []) := by decide
theorem test_tobinary_example :
    outcome (.tobinary 35) = some (.busy, .ok 0 [0x31, 0x30, 0x30, 0x30, 0x31, 0x31]) := by decide
theorem test_tobinary_zero : outcome (.tobinary 0) = some (.busy, .ok 0 [0x30]) := by decide

/-! ### Transactions and the host's notation (95_test_vectors.md sections 2.8 and 4) -/

theorem test_findunique_whole : (encodeFindUnique [2, 3, 5, 3, 2]).map execRequest = some (.ok 5 []) := by decide
theorem test_findunique_precondition_broken : (encodeFindUnique [1, 2, 3]).map execRequest = some (.ok 0 []) := by decide

/-- The response fields of TOBINARY 35: `rsp_str = 0x313130303031` (95_test_vectors.md E10). -/
theorem test_response_fields :
    responseFields (tobinaryResponse 35) = { status := 0, result := 0, strlen := 6, str := 0x313130303031 } := by decide

/-- Two lines of program P2: `v <- SWAPBITS u, 0, 1` after `u` is 5, and a use of a name bound to EmptyInput. -/
theorem test_host_line :
    runLines [some (.ok 5 []), some (.err .emptyInput)]
        [⟨.swapbits, [.boundBy 0, .literal 0, .literal 1]⟩, ⟨.popcount, [.boundBy 1]⟩]
      = [some (.ok 5 []), some (.err .emptyInput), some (.ok 6 []), none] := by decide

/-! ### Steps: one edge each -/

/-- The phase, the owed beat and the pending response after one step. -/
def afterStep (s : State) : Option (Phase × Option Beat × Response) :=
  match step s with
  | .next t => some (t.phase, t.offered, t.pending)
  | _ => none

/-- The next step after withFetchWord runs the table's word: opcode 0x0D with zero operands leaves the word 0. -/
theorem test_with_fetch_word :
    afterStep (State.reset.withFetchWord 32 0x0D) = some (.busy, none, .ok 0 []) := by decide

/-- An illegal beat is answered and does not stop the machine (95_test_vectors.md 2.10). -/
theorem test_step_illegal :
    afterStep (State.reset.withFetchWord 128 0x00000000000000200000000080000001) =
      some (.busy, none, .err .illegalCommand) := by decide

/-- Edge 6 of trace P5: the last data beat, 9 after 7. -/
theorem test_step_last_data_beat :
    afterStep { State.reset with phase := .collect, acc := 7, remaining := 1, script := [offerEdge (dataBeat 9)] } =
      some (.busy, none, .ok 0xE []) := by decide

/-- Edge 7 of trace P5: the internal step while POPCOUNT 1 waits. -/
theorem test_step_busy :
    afterStep { State.reset with
      phase := .busy, pending := .ok 0xE [],
      script := [{ offerEdge (encode (.popcount 1)) with latencyDone := true }] } =
      some (.respond, some 0x00000000000000000000000100000008, .ok 0xE []) := by decide

/-! ### Witnesses: for each statement with hypotheses, a state and operands that meet all of them -/

/-- The reset state with one beat on the next edge. -/
def offering (b : Beat) : State := { State.reset with script := [offerEdge b] }

theorem witness_OnlyLegalWordsAreCommands :
    let x : Beat := 0x2F
    ¬ (x.extractLsb' 5 27 = 0 ∧ 1 ≤ (x.extractLsb' 0 5).toNat ∧ (x.extractLsb' 0 5).toNat ≤ 16) ∧
      (offering x).script = offerEdge x :: [] ∧ (offerEdge x).rst = false ∧ (offerEdge x).reqValid = true ∧
      (offerEdge x).reqData = x ∧ (offering x).phase = .idle ∧ (offering x).offered = none := by decide

theorem witness_DecodeOfEncodeIsTheCommand : (Instr.swapbits 0xFFFFFFFF (2 ^ 32 - 1) 0).wellFormed = true := by decide

theorem witness_DecodedCommandsAreWellFormed :
    decode 0xFFFFFFFFFFFFFFFF0000000100000008#128 = .ok (.popcount 1) := by rfl

theorem witness_FirstBeatTellsTheTransactionLength : (encodeFindUnique [7, 9]).map Request.complete = some true := by decide

theorem witness_FinduniqueFoldsItsSequence :
    let edges := [offerEdge (dataBeat 7), offerEdge 0xFFFFFFFFFFFFFFFF00000009FFFFFFFF#128]
    let s : State := { State.reset with phase := .collect, remaining := 2, script := edges }
    edges ≠ [] ∧ (∀ e ∈ edges, e.rst = false ∧ e.reqValid = true) ∧ s.phase = .collect ∧ s.acc = 0 ∧
      s.remaining = edges.length ∧ s.offered = none ∧ s.script = edges ++ [] := by decide

theorem witness_FinduniqueFindsTheOddOneOut :
    ([2, 3, 5, 3, 2] : List Word) ≠ [] ∧ ([2, 3, 5, 3, 2] : List Word).length < 2 ^ 32 ∧
      ([2, 3, 5, 3, 2] : List Word).count 5 % 2 = 1 := ⟨by decide, by norm_num, rfl⟩

/-- The last premise, for every Word: one that is not an element has multiplicity 0. -/
theorem witness_FinduniqueFindsTheOddOneOut_all :
    ∀ y : Word, y ≠ 5 → ([2, 3, 5, 3, 2] : List Word).count y % 2 = 0 := by
  intro y hy
  by_cases hm : y ∈ ([2, 3, 5, 3, 2] : List Word)
  · simp only [List.mem_cons, List.not_mem_nil, or_false] at hm
    obtain rfl | rfl | rfl | rfl | rfl := hm <;> first | rfl | exact absurd rfl hy
  · rw [List.count_eq_zero.mpr hm]

theorem witness_FinduniqueIgnoresTheOrder : ([2, 3, 5] : List Word).Perm [5, 3, 2] := by decide

theorem witness_CommandsEndOnlyWithListedStatuses :
    decode (encode (.highestbit 0)) = .ok (.highestbit 0) ∧ decode 0x11#128 = .error .opcodeUnassigned := ⟨rfl, rfl⟩

theorem witness_IllegalCommandExactly :
    let s := offering 0x11
    s.script = offerEdge 0x11 :: [] ∧ (offerEdge 0x11).rst = false ∧ (offerEdge 0x11).reqValid = true ∧
      s.phase = .idle ∧ s.offered = none := by decide

/-- A unit that offers a response. -/
def responding (r : Response) : State := { State.reset with phase := .respond, pending := r, txn := some ⟨0, []⟩ }

theorem witness_StatusCodesOfTheOutcomes :
    (responding (.err .illegalCommand)).phase = .respond ∧
      (responding (.err .illegalCommand)).rspFields.status = 4 := by decide

theorem witness_ErrorResponsesCarryNoValue :
    (responding (.err .emptyInput)).phase = .respond ∧
      (responding (.err .emptyInput)).pending = .err .emptyInput := by decide

theorem witness_ResponseFieldsShowTheResponse :
    let s := responding (tobinaryResponse 0xFFFFFFFF)
    s.phase = .respond ∧ s.pending = .ok 0 (List.replicate 32 0x31) ∧
      execRequest ⟨encode (.tobinary 0xFFFFFFFF), []⟩ = s.pending := by decide

theorem witness_HostReadsBackTheResponse :
    5 ≤ ({ status := 5, result := 0, strlen := 0, str := 0 } : ResponseFields).status.toNat := by decide

theorem witness_StepRunsTheDecodedCommand :
    let s := offering (encode (.singlebit 31))
    let e := offerEdge (encode (.singlebit 31))
    s.script = e :: [] ∧ e.rst = false ∧ e.reqValid = true ∧ s.offered = none ∧ s.phase = .idle ∧
      decode e.reqData = .ok (.singlebit 31) := ⟨rfl, rfl, rfl, rfl, rfl, rfl⟩

/-- The same with the beat held since an earlier edge. -/
theorem witness_StepRunsTheDecodedCommand_held :
    let b := encode (.popcount 1)
    let s : State := { offering b with offered := some b }
    s.offered = some (offerEdge b).reqData ∧ s.phase = .idle ∧ decode b = .ok (.popcount 1) := ⟨rfl, rfl, rfl⟩

/-- A beat for each arm of IDLE in the step relation: illegal, FINDUNIQUE of none, FINDUNIQUE of one, any other command. -/
theorem witness_BeatLevelStepRelation_idle :
    legal (cmdOf 0#128) = false ∧
      (legal (cmdOf (encode (.findunique 0))) = true ∧ opcodeField (cmdOf (encode (.findunique 0))) = 0x0F ∧
        operandB (encode (.findunique 0)) = 0) ∧
      (legal (cmdOf (encode (.findunique 1))) = true ∧ operandB (encode (.findunique 1)) ≠ 0) ∧
      (legal (cmdOf (encode (.tobinary 1))) = true ∧ opcodeField (cmdOf (encode (.tobinary 1))) ≠ 0x0F) ∧
      (∀ b, (offering 0).offered = some b → (offerEdge 0).reqValid = true ∧ (offerEdge 0).reqData = b) :=
  ⟨by decide, by decide, by decide, by decide, by simp [offering, State.reset]⟩

/-- A state for each of the other arms of the step relation: the last data beat and one before it, and BUSY and RESPOND
with and without their event. -/
theorem witness_BeatLevelStepRelation_others :
    let e := offerEdge (dataBeat 9)
    let s : State := { State.reset with phase := .collect, remaining := 1, script := [e] }
    let t : State := { State.reset with phase := .busy, script := [{ e with latencyDone := true }, e] }
    let u : State := { responding (.ok 1 []) with script := [{ e with rspReady := true }, e] }
    (s.phase = .collect ∧ e.rst = false ∧ e.reqValid = true ∧ 1 ≤ s.remaining ∧ s.remaining - 1 = 0 ∧ s.offered = none) ∧
      { s with remaining := 2 }.remaining - 1 ≠ 0 ∧
      (t.phase = .busy ∧ t.offered = none ∧ e.latencyDone = false) ∧
      (u.phase = .respond ∧ u.offered = none ∧ e.rspReady = false) := by decide

/-- A reset edge in the middle of a collection, with a command on the next edge (trace P5, edges 3 and 4). -/
theorem witness_ResetAbandonsTheTransaction :
    let e : Edge := { offerEdge (dataBeat 9) with rst := true }
    let f := offerEdge (encode (.findunique 2))
    let s : State := { State.reset with phase := .collect, acc := 7, remaining := 1, script := [e, f] }
    s.script = e :: f :: [] ∧ e.rst = true ∧ f.rst = false ∧ f.reqValid = true ∧
      decode f.reqData = .ok (.findunique 2) ∧ decode (offerEdge 0).reqData = .error .opcodeUnassigned :=
  ⟨rfl, rfl, rfl, rfl, rfl, rfl⟩

/-- The same where the host owes POPCOUNT 1 before the reset and offers another beat after it (log entry 9). -/
theorem witness_ResetAbandonsTheTransaction_owed :
    let e : Edge := { offerEdge (encode (.popcount 1)) with rst := true }
    let f := offerEdge (encode (.findunique 2))
    let s : State := { State.reset with
      phase := .busy, pending := .ok 0xE [], offered := some (encode (.popcount 1)), script := [e, f] }
    s.script = e :: f :: [] ∧ e.rst = true ∧ f.rst = false ∧ f.reqValid = true ∧ s.offered ≠ some f.reqData := by decide

theorem witness_ResetEdgeWinsFromEveryState :
    let e : Edge := { offerEdge 0 with rst := true, rspReady := true }
    let s : State := { responding (.ok 1 []) with script := [e] }
    s.script = e :: [] ∧ e.rst = true := by decide

theorem witness_ResponseHeldUntilTaken :
    let e := offerEdge (encode (.popcount 1))
    let s : State := { responding (.ok 1 []) with script := [e], offered := some (encode (.popcount 1)) }
    s.script = e :: [] ∧ e.rst = false ∧ e.rspReady = false ∧ s.offered = some e.reqData ∧ e.reqValid = true ∧
      s.rspValid = true := by decide

theorem witness_OfferedBeatWaitsWhileBusy :
    let e := offerEdge (encode (.popcount 1))
    let s : State := { State.reset with phase := .busy, script := [e] }
    s.script = e :: [] ∧ e.rst = false ∧ e.reqValid = true ∧ s.offered = none ∧ s.phase = .busy ∧
      { s with phase := .respond }.phase = .respond := by decide

theorem witness_FinduniqueWaitsForItsBeats :
    let e : Edge := { offerEdge 0 with reqValid := false }
    let s : State := { State.reset with phase := .collect, remaining := 1, script := [e, e] }
    (∀ f ∈ [e, e], f.rst = false ∧ f.reqValid = false) ∧ s.phase = .collect ∧ s.offered = none ∧
      s.script = [e, e] ++ [] := by decide

/-- A host that changes the beat it owes, one that withdraws it, and the quiet edge. -/
theorem witness_StepStopsOnlyOnABrokenHold :
    let s : State := { State.reset with phase := .busy, offered := some 8, script := [offerEdge 9] }
    s.script = offerEdge 9 :: [] ∧ (offerEdge 9).rst = false ∧ s.offered = some 8 ∧ (offerEdge 9).reqData ≠ 8 ∧
      { offerEdge 8 with reqValid := false }.reqValid = false ∧ { s with script := [] }.script = [] := by decide

theorem witness_StepKeepsInv : Inv State.reset ∧ afterStep State.reset = some (.idle, none, .ok 0 []) :=
  ⟨⟨rfl, fun _ => rfl, by decide, by simp [State.reset]⟩, by decide⟩

/-- The invariant in a state inside a collection, and a step from it. -/
theorem witness_StepKeepsInv_collect :
    let s : State := { State.reset with
      phase := .collect, acc := 7, remaining := 1, txn := some ⟨encode (.findunique 2), [dataBeat 7]⟩,
      script := [offerEdge (dataBeat 9)] }
    Inv s ∧ afterStep s = some (.busy, none, .ok 0xE []) :=
  ⟨⟨⟨⟨encode (.findunique 2), [dataBeat 7]⟩, 2, rfl, rfl, by decide, by decide, rfl, rfl⟩, fun h => absurd rfl h,
    by decide, by simp [State.reset]⟩, by decide⟩

theorem witness_OnlyAcceptedResponsesAreDelivered :
    afterStep { responding (.ok 1 []) with script := [{ offerEdge 0 with reqValid := false, rspReady := true }] } =
      some (.idle, none, .ok 1 []) := by decide

/-- Two idle units, one fresh and one that an earlier FINDUNIQUE has left with another fold and another response. -/
theorem witness_NothingLeaksBetweenCommands :
    Alike (offering (encode (.findunique 2)))
      { offering (encode (.findunique 2)) with
        acc := 0xE, remaining := 3, pending := .err .emptyInput, draw := 12, log := [⟨none, .ok 1 []⟩] } :=
  ⟨rfl, rfl, rfl, by decide, by decide, by decide⟩

theorem witness_WholeTransactionDeliversItsResponse :
    let r : Request := ⟨encode (.findunique 2), [dataBeat 7, dataBeat 9]⟩
    let s : State := { State.reset with script := transactionScript r 2 }
    r.complete = true ∧ s.phase = .idle ∧ s.offered = none ∧ { s with offered := some r.first }.offered = some r.first ∧
      s.script = transactionScript r 2 ++ [] := by decide

theorem witness_ErrorBindsNoValue :
    let bindings : List (Option Response) := [some (.err .emptyInput)]
    let line (k : Nat) : HostLine := ⟨.popcount, [.boundBy k]⟩
    HostOperand.boundBy 0 ∈ (line 0).operands ∧ bindings[0]? = some (some (.err .emptyInput)) ∧
      (∃ r, lineRequest [] ⟨.highestbit, [.literal 0]⟩ = some r ∧ execRequest r = .err .emptyInput) :=
  ⟨by decide, by decide, ⟨_, rfl, by decide⟩⟩

theorem witness_AssembledLinesAreWholeRequests :
    (∃ r, assemble .countruns [0x4E, 2] = some r) ∧ ([0xFFFFFFFF, 0] : List Word).length < 2 ^ 32 :=
  ⟨⟨_, rfl⟩, by norm_num⟩

/-- The shortest sequence over `N_MAX`. -/
theorem witness_AssembledLinesAreWholeRequests_too_long :
    2 ^ 32 ≤ (List.replicate (2 ^ 32) (0 : Nat)).length ∧ 2 ^ 32 ≤ (List.replicate (2 ^ 32) (0 : Word)).length :=
  ⟨by rw [List.length_replicate], by rw [List.length_replicate]⟩

theorem witness_OperandsGoToTheirFields : (2 ^ 32 : Nat) ∈ [0x4E, 2 ^ 32] ∧ (2 ^ 32 : Nat) ≤ 2 ^ 32 := by decide

theorem witness_NamesStandForTheirResults :
    let bindings : List (Option Response) := [some (.ok 5 []), none]
    bindings[0]? = some (some (.ok 5 [])) ∧ HostOperand.boundBy 1 ∈ [HostOperand.literal 1, .boundBy 1] ∧
      bindings[1]? = some none ∧ HostOperand.boundBy 2 ∈ [HostOperand.boundBy 2] ∧ bindings.length ≤ 2 := by decide

/-- In-range operands of the laws at their largest value: index 31, run length 32, a range of all 32 positions. -/
theorem witness_Laws :
    31 < 32 ∧ (32 : Nat) ≤ 32 ∧ (0x80000000 : Word) ≠ 0 ∧ (0 : Nat) ≤ 31 ∧
      bitScanCount 32 0 0xFFFFFFFF ≤ 32 := by decide

end Sys2Proof.Tests
end

namespace Sys2Proof.Machine

/-! ### One edge of an unreset unit whose host keeps its hold -/

/-- An edge without reset on which the host keeps its hold is an edge of the channels (10_state.md R38). -/
theorem step_eq_channelEdge {s : State} {e : Edge} {rest : List Edge} (hscript : s.script = e :: rest)
    (hrst : e.rst = false) (hhold : keepsHold e s = true) :
    step s = channelEdge e { s with script := rest, draw := s.draw + 1 } := by
  have hhold' : keepsHold e { s with script := rest, draw := s.draw + 1 } = true := hhold
  rw [step_cons hscript, clockEdge, hrst, hhold']
  rfl

theorem channelEdge_of_idle {e : Edge} {s : State} (hphase : s.phase = .idle) (hvalid : e.reqValid = true) :
    channelEdge e s = acceptCommand e.reqData s := by
  simp [channelEdge, hphase, hvalid]

theorem acceptCommand_of_decode {b : Beat} {i : Instr} (h : decode b = .ok i) (s : State) :
    acceptCommand b s = exec i (beginTransaction b s) := by
  simp [acceptCommand, h]

/-- A host that offers a beat afresh, or the beat it owes, keeps its hold (R345). -/
theorem keepsHold_of_offered {e : Edge} {s : State} (hvalid : e.reqValid = true)
    (hoffered : s.offered = none ∨ s.offered = some e.reqData) : keepsHold e s = true := by
  rw [keepsHold_iff]
  intro b hb
  obtain hnone | hsome := hoffered
  · simp [hnone] at hb
  · exact ⟨hvalid, Option.some.inj (hsome.symm.trans hb)⟩

/-- Settles O42: the hold is kept, so the edge reaches the idle unit's request channel, which runs what the beat decodes
to. -/
theorem stepRunsTheDecodedCommand : Obligations.StepRunsTheDecodedCommand := by
  intro s e rest i hscript hrst hvalid hoffered hphase hdecode
  calc step s
      = channelEdge e { s with script := rest, draw := s.draw + 1 } :=
        step_eq_channelEdge hscript hrst (keepsHold_of_offered hvalid hoffered)
    _ = acceptCommand e.reqData { s with script := rest, draw := s.draw + 1 } := channelEdge_of_idle hphase hvalid
    _ = exec i (beginTransaction e.reqData { s with script := rest, draw := s.draw + 1 }) :=
        acceptCommand_of_decode hdecode _

/-! ### A command reads nothing of the state it meets -/

theorem exec_findunique_of_ne_zero {n : Nat} (h : n ≠ 0) (s : State) :
    exec (.findunique n) s = .next { s with acc := 0, remaining := n, phase := .collect } := by
  simp [exec, execFindunique, startCollect, h]

/-- `exec_cases` with the case chosen by the command alone: it opens a collection in every state, or it answers the same
response in every state (00_scope.md R14). -/
theorem exec_opensCollect_or_answers (i : Instr) :
    (∃ n, ∀ s : State, exec i s = .next { s with acc := 0, remaining := n, phase := .collect }) ∨
    Answers i (commandResponse i []) := by
  by_cases h : ∃ n, n ≠ 0 ∧ i = .findunique n
  · obtain ⟨n, hn, rfl⟩ := h
    exact .inl ⟨n, exec_findunique_of_ne_zero hn⟩
  · refine .inr fun s => ?_
    obtain ⟨n, hi, hn, -⟩ | ⟨he, -⟩ := exec_cases i s
    · exact absurd ⟨n, hn, hi⟩ h
    · exact he

/-- Settles O54: the command alone chooses between the two outcomes, and each sets its meaningful fields to values that do
not depend on the state. -/
theorem commandOutcomeIgnoresTheState : Obligations.CommandOutcomeIgnoresTheState := by
  intro i s t
  obtain ⟨n, hopens⟩ | hanswers := exec_opensCollect_or_answers i
  · exact ⟨_, _, hopens s, hopens t, rfl, nofun, fun _ => ⟨rfl, rfl⟩, .inr rfl⟩
  · exact ⟨_, _, hanswers s, hanswers t, rfl, fun _ => rfl, nofun, .inl rfl⟩

end Sys2Proof.Machine

namespace Sys2Proof

/-- A beat decodes to FINDUNIQUE exactly when its command word is legal with opcode 0x0F; the length is operand B
(30_encoding.md R73, R78). -/
theorem decode_eq_findunique_iff (b : Beat) (n : Nat) :
    decode b = .ok (.findunique n) ↔
      legal (cmdOf b) = true ∧ opcodeField (cmdOf b) = 0x0F ∧ n = operandB b := by
  constructor
  · intro h
    obtain ⟨op, -, hcode, hi⟩ := (decode_eq_ok b _).mp h
    cases op <;> simp only [Opcode.withOperands, reduceCtorEq, Instr.findunique.injEq] at hi
    exact ⟨(decode_ok_iff_legal b).mp ⟨_, h⟩, hcode, hi⟩
  · rintro ⟨hlegal, hcode, rfl⟩
    obtain ⟨i, h⟩ := (decode_ok_iff_legal b).mpr hlegal
    obtain ⟨op, -, hop, rfl⟩ := (decode_eq_ok b i).mp h
    rw [hcode] at hop
    obtain rfl : op = .findunique := Option.some.inj ((ofCode_code op).symm.trans (hop ▸ rfl))
    exact h

end Sys2Proof

namespace Sys2Proof.Machine

/-! ### The arms of the step relation (10_state.md R38) -/

/-- A FINDUNIQUE of at least one element opens its collection. -/
theorem acceptCommand_opens {b : Beat} {n : Nat} (hdecode : decode b = .ok (.findunique n)) (hn : n ≠ 0) (s : State) :
    acceptCommand b s =
      .next { s with offered := none, txn := some ⟨b, []⟩, acc := 0, remaining := n, phase := .collect } := by
  rw [acceptCommand_of_decode hdecode, exec_findunique_of_ne_zero hn]
  rfl

/-- Every other first beat, legal or not, is answered with `Exec` of it. -/
theorem acceptCommand_answers {b : Beat} (h : ∀ n, decode b = .ok (.findunique n) → n = 0) (s : State) :
    acceptCommand b s =
      .next { s with offered := none, txn := some ⟨b, []⟩, pending := execRequest ⟨b, []⟩, phase := .busy } := by
  obtain ⟨n, hdecode, hn, -⟩ | ⟨-, hanswers⟩ := acceptCommand_cases b s
  · exact absurd (h n hdecode) hn
  · exact hanswers

theorem channelEdge_of_collect {e : Edge} {s : State} (hphase : s.phase = .collect) (hvalid : e.reqValid = true) :
    channelEdge e s = .next (collectBeat e.reqData s) := by
  simp [channelEdge, hphase, hvalid]

theorem channelEdge_of_no_beat {e : Edge} {s : State} (hphase : s.phase = .idle ∨ s.phase = .collect)
    (hvalid : e.reqValid = false) : channelEdge e s = .next s := by
  obtain hphase | hphase := hphase <;> simp [channelEdge, hphase, hvalid]

theorem channelEdge_of_busy (e : Edge) {s : State} (hphase : s.phase = .busy) :
    channelEdge e s = .next (noteOffer e (if e.latencyDone then internalStep s else s)) := by
  simp [channelEdge, hphase]

theorem channelEdge_of_respond (e : Edge) {s : State} (hphase : s.phase = .respond) :
    channelEdge e s = .next (noteOffer e (if e.rspReady then deliver s else s)) := by
  simp [channelEdge, hphase]

theorem execRequest_of_illegal {b : Beat} (h : legal (cmdOf b) = false) (data : List Beat) :
    execRequest ⟨b, data⟩ = .err .illegalCommand := by
  obtain ⟨why, hdecode⟩ := (decode_error_iff b).mpr h
  simp [execRequest, hdecode]

theorem execRequest_of_findunique {b : Beat} {n : Nat} (h : decode b = .ok (.findunique n)) (data : List Beat) :
    execRequest ⟨b, data⟩ = finduniqueResponse n (data.map operandA) := by
  simp [execRequest, h, commandResponse]

theorem reqReady_false_iff (s : State) : s.reqReady false = true ↔ s.phase = .idle ∨ s.phase = .collect := by
  simp [State.reqReady]

theorem rspValid_iff (s : State) : s.rspValid = true ↔ s.phase = .respond := by
  simp [State.rspValid]

/-- Settles O43: the edge is one of the channels, and each arm is what the phase's part of `channelEdge` does. -/
theorem beatLevelStepRelation : Obligations.BeatLevelStepRelation := by
  refine ⟨fun s => ⟨reqReady_false_iff s, rspValid_iff s⟩, ?_⟩
  intro s u e rest hscript hrst hhold hu
  have hstep : step s = channelEdge e u := by
    rw [hu]
    exact step_eq_channelEdge hscript hrst ((keepsHold_iff e s).mpr hhold)
  have hphase : u.phase = s.phase := by rw [hu]
  rw [hstep, ← hphase]
  refine ⟨fun hidle hvalid => ?_, fun hcollect _ hvalid => ?_, fun hbusy hdone => ?_, fun hrespond hready => ?_,
    fun hwaits hvalid => channelEdge_of_no_beat hwaits hvalid, ?_⟩
  · rw [channelEdge_of_idle hidle hvalid]
    refine ⟨fun hillegal => ?_, fun hlegal hcode hzero => ?_, fun hlegal hcode hpos => ?_, fun hlegal hcode => ?_⟩
    · rw [acceptCommand_answers, execRequest_of_illegal hillegal []]
      intro n h
      simp [((decode_eq_findunique_iff e.reqData n).mp h).1] at hillegal
    · have hdecode := (decode_eq_findunique_iff e.reqData 0).mpr ⟨hlegal, hcode, hzero.symm⟩
      exact acceptCommand_of_decode hdecode u
    · have hdecode := (decode_eq_findunique_iff e.reqData _).mpr ⟨hlegal, hcode, rfl⟩
      exact acceptCommand_opens hdecode hpos u
    · exact acceptCommand_answers (fun n h => absurd ((decode_eq_findunique_iff e.reqData n).mp h).2.1 hcode) u
  · refine ⟨_, channelEdge_of_collect hcollect hvalid, ?_⟩
    have hs : s.phase = .collect := hphase.symm.trans hcollect
    subst hu
    simp +contextual [hs]
  · rw [channelEdge_of_busy e hbusy, hdone]
    rfl
  · subst hu
    rw [channelEdge_of_respond e hrespond, hready]
    rfl
  · rintro (⟨hbusy, hdone⟩ | ⟨hrespond, hready⟩)
    · rw [channelEdge_of_busy e hbusy, hdone]
      rfl
    · rw [channelEdge_of_respond e hrespond, hready]
      rfl

/-! ### What a step that goes on has done -/

/-- Everything a channel edge can do: take a first beat, take a data beat, find no beat, run out of LATENCY, deliver, or
hold. -/
theorem channelEdge_next_cases {e : Edge} {s t : State} (h : channelEdge e s = .next t) :
    (s.phase = .idle ∧ acceptCommand e.reqData s = .next t) ∨
    (s.phase = .collect ∧ t = collectBeat e.reqData s) ∨
    ((s.phase = .idle ∨ s.phase = .collect) ∧ t = s) ∨
    (s.phase = .busy ∧ t = noteOffer e (internalStep s)) ∨
    (s.phase = .respond ∧ e.rspReady = true ∧ t = noteOffer e (deliver s)) ∨
    ((s.phase = .busy ∨ s.phase = .respond) ∧ t = noteOffer e s) := by
  cases hphase : s.phase with
  | idle =>
    cases hvalid : e.reqValid with
    | true => exact .inl ⟨rfl, (channelEdge_of_idle hphase hvalid).symm.trans h⟩
    | false =>
      rw [channelEdge_of_no_beat (.inl hphase) hvalid] at h
      simp_all
  | collect =>
    cases hvalid : e.reqValid with
    | true =>
      rw [channelEdge_of_collect hphase hvalid] at h
      simp_all
    | false =>
      rw [channelEdge_of_no_beat (.inr hphase) hvalid] at h
      simp_all
  | busy =>
    rw [channelEdge_of_busy e hphase] at h
    cases hlatency : e.latencyDone <;> simp_all
  | respond =>
    rw [channelEdge_of_respond e hphase] at h
    cases hready : e.rspReady <;> simp_all

/-- A step that goes on is a reset edge, or an edge of the channels in the state that has used up the edge. -/
theorem step_next_cases {s t : State} (h : step s = .next t) :
    t = resetEdge (advance s) ∨
    ((currentEdge s).rst = false ∧ channelEdge (currentEdge s) (advance s) = .next t) := by
  unfold step at h
  obtain ⟨-, hc⟩ | ⟨-, -, hc⟩ | ⟨hrst, -, hc⟩ := clockEdge_cases (currentEdge s) (advance s) <;> rw [hc] at h
  · exact .inl (Host.Outcome.next.inj h).symm
  · cases h
  · exact .inr ⟨hrst, h⟩

theorem acceptCommand_keeps_log {b : Beat} {s t : State} (h : acceptCommand b s = .next t) : t.log = s.log := by
  obtain ⟨n, -, -, hc⟩ | ⟨-, hc⟩ := acceptCommand_cases b s <;>
  · rw [hc] at h
    cases h
    rfl

/-- Settles O53: of everything a step can do, only `deliver` touches the delivered responses. -/
theorem onlyAcceptedResponsesAreDelivered : Obligations.OnlyAcceptedResponsesAreDelivered := by
  intro s t h
  obtain rfl | ⟨hrst, h⟩ := step_next_cases h
  · exact .inl rfl
  obtain ⟨-, haccept⟩ | ⟨-, rfl⟩ | ⟨-, rfl⟩ | ⟨-, rfl⟩ | ⟨hphase, hready, rfl⟩ | ⟨-, rfl⟩ :=
    channelEdge_next_cases h
  · exact .inl (acceptCommand_keeps_log (s := advance s) haccept)
  · exact .inl (collectBeat_log _ _)
  · exact .inl rfl
  · exact .inl rfl
  · exact .inr ⟨hphase, rfl, hrst, hready, rfl⟩
  · exact .inl rfl

/-! ### The transaction in progress -/

theorem transactionOk_of_idle {s : State} (h : s.phase = .idle) : TransactionOk s ↔ s.txn = none := by
  simp [TransactionOk, h]

theorem transactionOk_of_collect {s : State} (h : s.phase = .collect) :
    TransactionOk s ↔ ∃ (r : Request) (n : Nat),
      s.txn = some r ∧ decode r.first = .ok (.findunique n) ∧ r.data.length < n ∧
        s.acc = xorFold 0 (r.data.map operandA) ∧ s.remaining = n - r.data.length ∧ s.offered = none := by
  simp [TransactionOk, h]

theorem transactionOk_of_pending {s : State} (h : s.phase = .busy ∨ s.phase = .respond) :
    TransactionOk s ↔ ∃ r : Request, s.txn = some r ∧ r.complete = true ∧ s.pending = execRequest r := by
  obtain h | h := h <;> simp [TransactionOk, h]

/-- A FINDUNIQUE is whole when all its elements have arrived (30_encoding.md R78). -/
theorem complete_iff_of_findunique {b : Beat} {n : Nat} (h : decode b = .ok (.findunique n)) (data : List Beat) :
    Request.complete ⟨b, data⟩ = true ↔ data.length = n := by
  rw [complete_iff, (transactionLength_of_decode b).1 n h]
  exact Nat.add_left_cancel_iff

/-- A first beat that opens no collection is a whole request (30_encoding.md R77). -/
theorem complete_of_first {b : Beat} (h : ∀ n, decode b = .ok (.findunique n) → n = 0) :
    Request.complete ⟨b, []⟩ = true := by
  by_cases hf : ∃ n, decode b = .ok (.findunique n)
  · obtain ⟨n, hn⟩ := hf
    exact (complete_iff_of_findunique hn []).mpr (h n hn).symm
  · rw [complete_iff, (transactionLength_of_decode b).2 (fun n hn => hf ⟨n, hn⟩)]
    rfl

theorem xorFold_append_singleton (acc : Word) (elements : List Word) (w : Word) :
    xorFold acc (elements ++ [w]) = xorFold acc elements ^^^ w := by
  simp [xorFold]

/-- `Exec` of a FINDUNIQUE whose last beat is `b`: the fold of the beats before it, and `b`'s element (R240). -/
theorem execRequest_addData {r : Request} {n : Nat} (hdecode : decode r.first = .ok (.findunique n)) (hn : n ≠ 0)
    (b : Beat) :
    execRequest (addData r b) = .ok (xorFold 0 (r.data.map operandA) ^^^ operandA b) [] := by
  rw [addData, execRequest_of_findunique hdecode, finduniqueResponse, if_neg hn]
  simp [xorFold_append_singleton]

/-- The transfer of a first beat, in whatever state, starts its transaction right. -/
theorem acceptCommand_transactionOk {b : Beat} {s t : State} (h : acceptCommand b s = .next t) : TransactionOk t := by
  obtain ⟨n, hdecode, hn, hc⟩ | ⟨hfirst, hc⟩ := acceptCommand_cases b s <;> rw [hc] at h <;> cases h
  · rw [transactionOk_of_collect rfl]
    exact ⟨⟨b, []⟩, n, rfl, hdecode, Nat.pos_of_ne_zero hn, rfl, rfl, rfl⟩
  · rw [transactionOk_of_pending (.inl rfl)]
    exact ⟨⟨b, []⟩, rfl, complete_of_first hfirst, rfl⟩

/-- A data beat carries the fold on, and the last one leaves the whole request with its response pending. -/
theorem collectBeat_transactionOk {s : State} (hphase : s.phase = .collect) (h : TransactionOk s) (b : Beat) :
    TransactionOk (collectBeat b s) := by
  obtain ⟨r, n, htxn, hdecode, hlength, hacc, hremaining, -⟩ := (transactionOk_of_collect hphase).mp h
  by_cases hlast : s.remaining - 1 = 0
  · rw [transactionOk_of_pending (.inl (by simp [hlast]))]
    refine ⟨addData r b, by simp [htxn], (complete_iff_of_findunique hdecode _).mpr ?_, ?_⟩
    · rw [List.length_append, List.length_singleton]
      omega
    · rw [execRequest_addData hdecode (by omega)]
      simp [hlast, hacc]
  · rw [transactionOk_of_collect (by simp [hlast, hphase])]
    refine ⟨addData r b, n, by simp [htxn], hdecode, ?_, ?_, ?_, by simp⟩
    · simp only [addData_data, List.length_append, List.length_singleton]
      omega
    · simp [hacc, xorFold_append_singleton]
    · simp only [collectBeat_remaining, addData_data, List.length_append, List.length_singleton]
      omega

theorem noteOffer_transactionOk {s : State} (hphase : s.phase = .busy ∨ s.phase = .respond) (h : TransactionOk s)
    (e : Edge) : TransactionOk (noteOffer e s) :=
  (transactionOk_of_pending (s := noteOffer e s) hphase).mpr ((transactionOk_of_pending hphase).mp h)

theorem internalStep_transactionOk {s : State} (hphase : s.phase = .busy) (h : TransactionOk s) :
    TransactionOk (internalStep s) :=
  (transactionOk_of_pending (.inr rfl)).mpr ((transactionOk_of_pending (.inl hphase)).mp h)

/-! ### The reset state and the invariant -/

/-- Settles O44: each value is the one `State.reset` is written with, and the two signals follow from its phase. -/
theorem resetStateHoldsTheSpecsValues : Obligations.ResetStateHoldsTheSpecsValues :=
  ⟨rfl, rfl, rfl, rfl, rfl, rfl⟩

/-- Settles O51: at reset no transaction is in progress and nothing has been delivered. -/
theorem invHoldsAtReset : Obligations.InvHoldsAtReset where
  transaction := rfl
  remainingZero _ := rfl
  remainingFits := by decide
  delivered _ hx := absurd hx List.not_mem_nil

theorem advance_inv {s : State} (h : Inv s) : Inv (advance s) :=
  ⟨h.transaction, h.remainingZero, h.remainingFits, h.delivered⟩

theorem resetEdge_inv {s : State} (h : Inv s) : Inv (resetEdge s) where
  transaction := rfl
  remainingZero _ := rfl
  remainingFits := by simp
  delivered := h.delivered

theorem acceptCommand_inv {b : Beat} {s t : State} (hphase : s.phase = .idle) (hinv : Inv s)
    (h : acceptCommand b s = .next t) : Inv t := by
  have hzero : s.remaining = 0 := hinv.remainingZero (by simp [hphase])
  have htransaction : TransactionOk t := acceptCommand_transactionOk h
  obtain ⟨n, hdecode, -, hc⟩ | ⟨-, hc⟩ := acceptCommand_cases b s <;> rw [hc] at h <;> cases h
  · have hn : n < 2 ^ 32 := ((decode_eq_findunique_iff b n).mp hdecode).2.2 ▸ operandB_lt b
    exact ⟨htransaction, fun hne => absurd rfl hne, hn, hinv.delivered⟩
  · exact ⟨htransaction, fun _ => hzero, hinv.remainingFits, hinv.delivered⟩

theorem collectBeat_inv {s : State} (hphase : s.phase = .collect) (hinv : Inv s) (b : Beat) :
    Inv (collectBeat b s) where
  transaction := collectBeat_transactionOk hphase hinv.transaction b
  remainingZero hne := by
    by_contra hmore
    rw [collectBeat_remaining] at hmore
    simp [hmore, hphase] at hne
  remainingFits := by
    have := hinv.remainingFits
    rw [collectBeat_remaining]
    omega
  delivered := by simpa using hinv.delivered

theorem noteOffer_inv {s : State} (hphase : s.phase ≠ .collect) (hinv : Inv s) (e : Edge) : Inv (noteOffer e s) where
  transaction := by
    cases hp : s.phase with
    | idle => exact (transactionOk_of_idle (s := noteOffer e s) hp).mpr ((transactionOk_of_idle hp).mp hinv.transaction)
    | collect => exact absurd hp hphase
    | busy => exact noteOffer_transactionOk (.inl hp) hinv.transaction e
    | respond => exact noteOffer_transactionOk (.inr hp) hinv.transaction e
  remainingZero := hinv.remainingZero
  remainingFits := hinv.remainingFits
  delivered := hinv.delivered

theorem internalStep_inv {s : State} (hphase : s.phase = .busy) (hinv : Inv s) : Inv (internalStep s) where
  transaction := internalStep_transactionOk hphase hinv.transaction
  remainingZero _ := hinv.remainingZero (by simp [hphase])
  remainingFits := hinv.remainingFits
  delivered := hinv.delivered

/-- The response that is delivered is the pending one, which the invariant ties to the whole request in progress. -/
theorem deliver_inv {s : State} (hphase : s.phase = .respond) (hinv : Inv s) : Inv (deliver s) where
  transaction := rfl
  remainingZero _ := hinv.remainingZero (by simp [hphase])
  remainingFits := hinv.remainingFits
  delivered x hx := by
    rw [deliver_log, List.mem_append, List.mem_singleton] at hx
    obtain hx | rfl := hx
    · exact hinv.delivered x hx
    · exact (transactionOk_of_pending (.inr hphase)).mp hinv.transaction

theorem channelEdge_inv {e : Edge} {s t : State} (hinv : Inv s) (h : channelEdge e s = .next t) : Inv t := by
  obtain ⟨hphase, haccept⟩ | ⟨hphase, rfl⟩ | ⟨-, rfl⟩ | ⟨hphase, rfl⟩ | ⟨hphase, -, rfl⟩ | ⟨hphase, rfl⟩ :=
    channelEdge_next_cases h
  · exact acceptCommand_inv hphase hinv haccept
  · exact collectBeat_inv hphase hinv e.reqData
  · exact hinv
  · exact noteOffer_inv (by simp) (internalStep_inv hphase hinv) e
  · exact noteOffer_inv (by simp) (deliver_inv hphase hinv) e
  · exact noteOffer_inv (by rintro hcollect; simp [hcollect] at hphase) hinv e

/-- Settles O52: each operation a step can be made of keeps the invariant. -/
theorem stepKeepsInv : Obligations.StepKeepsInv := by
  intro s t hinv h
  obtain rfl | ⟨-, h⟩ := step_next_cases h
  · exact resetEdge_inv (advance_inv hinv)
  · exact channelEdge_inv (advance_inv hinv) h

/-! ### Two units that no host can tell apart -/

/-- Two steps, of `s` and of `t`, that no host can tell apart: they deliver the same responses and end alike, or they are
refused for the same reason. -/
def OutcomesAlike (s t : State) (o o' : Host.Outcome State Fault Refusal) : Prop :=
  (∃ s' t', o = .next s' ∧ o' = .next t' ∧ Alike s' t' ∧
    (s'.log.drop s.log.length).map (fun x => x.response) = (t'.log.drop t.log.length).map (fun x => x.response)) ∨
  (∃ why, o = .refused why ∧ o' = .refused why)

/-- Two steps that deliver nothing and end alike. -/
theorem outcomesAlike_of_log_kept {s t s' t' : State} (halike : Alike s' t') (hs : s'.log = s.log)
    (ht : t'.log = t.log) : OutcomesAlike s t (.next s') (.next t') :=
  .inl ⟨s', t', rfl, rfl, halike, by simp [hs, ht]⟩

theorem advance_alike {s t : State} (h : Alike s t) : Alike (advance s) (advance t) :=
  ⟨h.phase, congrArg List.tail h.script, h.offered, h.acc, h.remaining, h.pending⟩

theorem currentEdge_eq_of_alike {s t : State} (h : Alike s t) : currentEdge s = currentEdge t := by
  simp [currentEdge, quietEdge, h.script, h.offered]

theorem keepsHold_eq_of_alike {s t : State} (h : Alike s t) (e : Edge) : keepsHold e s = keepsHold e t := by
  simp [keepsHold, h.offered]

theorem resetEdge_alike {s t : State} (h : Alike s t) : Alike (resetEdge s) (resetEdge t) :=
  ⟨rfl, h.script, rfl, fun _ => rfl, fun _ => rfl, by simp⟩

theorem noteOffer_alike {s t : State} (h : Alike s t) (e : Edge) : Alike (noteOffer e s) (noteOffer e t) :=
  ⟨h.phase, h.script, rfl, h.acc, h.remaining, h.pending⟩

theorem internalStep_alike {s t : State} (h : Alike s t) (hphase : s.phase = .busy) :
    Alike (internalStep s) (internalStep t) :=
  ⟨rfl, h.script, h.offered, nofun, nofun, fun _ => h.pending (.inl hphase)⟩

theorem deliver_alike {s t : State} (h : Alike s t) : Alike (deliver s) (deliver t) :=
  ⟨rfl, h.script, h.offered, nofun, nofun, by simp⟩

theorem collectBeat_alike {s t : State} (h : Alike s t) (hphase : s.phase = .collect) (b : Beat) :
    Alike (collectBeat b s) (collectBeat b t) where
  phase := by simp [h.phase, h.remaining hphase]
  script := by simp [h.script]
  offered := by simp
  acc _ := by simp [h.acc hphase]
  remaining _ := by simp [h.remaining hphase]
  pending hp := by
    have hlast : s.remaining - 1 = 0 := by
      by_contra hmore
      simp [hmore, hphase] at hp
    simp [← h.remaining hphase, h.acc hphase, hlast]

/-- The first beat alone decides whether a collection opens, and sets every field that is meaningful from then on. -/
theorem acceptCommand_alike {s t : State} (h : Alike s t) (b : Beat) :
    OutcomesAlike s t (acceptCommand b s) (acceptCommand b t) := by
  by_cases hopens : ∃ n, decode b = .ok (.findunique n) ∧ n ≠ 0
  · obtain ⟨n, hdecode, hn⟩ := hopens
    rw [acceptCommand_opens hdecode hn, acceptCommand_opens hdecode hn]
    exact outcomesAlike_of_log_kept ⟨rfl, h.script, rfl, fun _ => rfl, fun _ => rfl, by simp⟩ rfl rfl
  · have hfirst : ∀ n, decode b = .ok (.findunique n) → n = 0 := by
      intro n hdecode
      by_contra hn
      exact hopens ⟨n, hdecode, hn⟩
    rw [acceptCommand_answers hfirst, acceptCommand_answers hfirst]
    exact outcomesAlike_of_log_kept ⟨rfl, h.script, rfl, nofun, nofun, fun _ => rfl⟩ rfl rfl

theorem channelEdge_alike {s t : State} (h : Alike s t) (e : Edge) :
    OutcomesAlike s t (channelEdge e s) (channelEdge e t) := by
  cases hs : s.phase with
  | idle =>
    have ht : t.phase = .idle := h.phase ▸ hs
    cases hvalid : e.reqValid with
    | true =>
      rw [channelEdge_of_idle hs hvalid, channelEdge_of_idle ht hvalid]
      exact acceptCommand_alike h e.reqData
    | false =>
      rw [channelEdge_of_no_beat (.inl hs) hvalid, channelEdge_of_no_beat (.inl ht) hvalid]
      exact outcomesAlike_of_log_kept h rfl rfl
  | collect =>
    have ht : t.phase = .collect := h.phase ▸ hs
    cases hvalid : e.reqValid with
    | true =>
      rw [channelEdge_of_collect hs hvalid, channelEdge_of_collect ht hvalid]
      exact outcomesAlike_of_log_kept (collectBeat_alike h hs e.reqData) (by simp) (by simp)
    | false =>
      rw [channelEdge_of_no_beat (.inr hs) hvalid, channelEdge_of_no_beat (.inr ht) hvalid]
      exact outcomesAlike_of_log_kept h rfl rfl
  | busy =>
    rw [channelEdge_of_busy e hs, channelEdge_of_busy e (h.phase ▸ hs)]
    cases e.latencyDone with
    | true => exact outcomesAlike_of_log_kept (noteOffer_alike (internalStep_alike h hs) e) rfl rfl
    | false => exact outcomesAlike_of_log_kept (noteOffer_alike h e) rfl rfl
  | respond =>
    rw [channelEdge_of_respond e hs, channelEdge_of_respond e (h.phase ▸ hs)]
    cases e.rspReady with
    | true =>
      refine .inl ⟨_, _, rfl, rfl, noteOffer_alike (deliver_alike h) e, ?_⟩
      simp [h.pending (.inr hs)]
    | false => exact outcomesAlike_of_log_kept (noteOffer_alike h e) rfl rfl

theorem clockEdge_alike {s t : State} (h : Alike s t) (e : Edge) :
    OutcomesAlike s t (clockEdge e s) (clockEdge e t) := by
  unfold clockEdge
  rw [← keepsHold_eq_of_alike h e]
  split
  · exact outcomesAlike_of_log_kept (resetEdge_alike h) rfl rfl
  · split
    · exact channelEdge_alike h e
    · exact .inr ⟨_, rfl, rfl⟩

/-- Settles O55: alike states sample the same edge, and on it each phase reads only the fields in which they agree. -/
theorem nothingLeaksBetweenCommands : Obligations.NothingLeaksBetweenCommands := by
  intro s t h
  have halike : OutcomesAlike s t (step s) (step t) := by
    rw [step, step, ← currentEdge_eq_of_alike h]
    exact clockEdge_alike (advance_alike h) (currentEdge s)
  exact halike

/-! ### A whole transaction -/

/-- The beats of `r` have been transferred and no others, `edges` are still to come, and `delivered` stands as before: the
unit collects until `r` is whole and is BUSY from then on. -/
structure Received (r : Request) (edges : List Edge) (delivered : List Exchange) (s : State) : Prop where
  txn         : s.txn = some r
  offered     : s.offered = none
  script      : s.script = edges
  log         : s.log = delivered
  transaction : TransactionOk s
  phase       : s.phase = if r.complete then .busy else .collect

section

variable {r : Request} {rest : List Edge} {delivered : List Exchange} {s : State}

theorem Received.busy (h : Received r rest delivered s) (hcomplete : r.complete = true) : s.phase = .busy := by
  simpa [hcomplete] using h.phase

/-- The pending response is `Exec` of the whole request. -/
theorem Received.pending (h : Received r rest delivered s) (hcomplete : r.complete = true) :
    s.pending = execRequest r := by
  obtain ⟨r', htxn, -, hpending⟩ := (transactionOk_of_pending (.inl (h.busy hcomplete))).mp h.transaction
  rw [hpending, Option.some.inj (htxn.symm.trans h.txn)]

/-- An edge of the channels that a host which owes nothing cannot spoil. -/
theorem step_of_nothing_owed {e : Edge} (hscript : s.script = e :: rest)
    (hrst : e.rst = false) (hoffered : s.offered = none) :
    step s = channelEdge e { s with script := rest, draw := s.draw + 1 } :=
  step_eq_channelEdge hscript hrst ((keepsHold_iff e s).mpr (by simp [hoffered]))

/-- The first beat, offered afresh or held since an earlier edge. -/
theorem step_first_beat {b : Beat} (hphase : s.phase = .idle)
    (hoffered : s.offered = none ∨ s.offered = some b) (hscript : s.script = offerEdge b :: rest) :
    ∃ t, step s = .next t ∧ Received ⟨b, []⟩ rest s.log t := by
  have hstep : step s = acceptCommand b { s with script := rest, draw := s.draw + 1 } := by
    rw [step_eq_channelEdge hscript rfl (keepsHold_of_offered rfl hoffered)]
    exact channelEdge_of_idle hphase rfl
  obtain ⟨n, hdecode, hn, hc⟩ | ⟨hfirst, hc⟩ := acceptCommand_cases b { s with script := rest, draw := s.draw + 1 }
  · have hmore : ¬ Request.complete ⟨b, []⟩ = true := fun h => hn ((complete_iff_of_findunique hdecode []).mp h).symm
    exact ⟨_, hstep.trans hc, rfl, rfl, rfl, rfl, acceptCommand_transactionOk hc, by simp [hmore]⟩
  · exact ⟨_, hstep.trans hc, rfl, rfl, rfl, rfl, acceptCommand_transactionOk hc, by simp [complete_of_first hfirst]⟩

/-- One more data beat. -/
theorem step_data_beat {b : Beat} (h : Received r (offerEdge b :: rest) delivered s) (hmore : ¬ r.complete = true) :
    ∃ t, step s = .next t ∧ Received (addData r b) rest delivered t := by
  have hphase : s.phase = .collect := by simpa [hmore] using h.phase
  obtain ⟨r', n, htxn, hdecode, hlength, -, hremaining, -⟩ := (transactionOk_of_collect hphase).mp h.transaction
  obtain rfl : r' = r := Option.some.inj (htxn.symm.trans h.txn)
  have hlast : (addData r' b).complete = true ↔ s.remaining - 1 = 0 := by
    rw [addData, complete_iff_of_findunique hdecode, List.length_append, List.length_singleton]
    omega
  refine ⟨collectBeat b { s with script := rest, draw := s.draw + 1 }, ?_, ?_⟩
  · rw [step_of_nothing_owed h.script rfl h.offered]
    exact channelEdge_of_collect hphase rfl
  · exact {
      txn := by simp [htxn]
      offered := by simp
      script := by simp
      log := by simp [h.log]
      transaction := collectBeat_transactionOk (s := { s with script := rest, draw := s.draw + 1 }) hphase h.transaction b
      phase := by simp [hlast, hphase] }

/-- All data beats of a request, on an edge each. -/
theorem runEdges_data_beats {first : Beat} (data sent : List Beat)
    (hcomplete : Request.complete ⟨first, sent ++ data⟩ = true)
    (h : Received ⟨first, sent⟩ (data.map offerEdge ++ rest) delivered s) :
    ∃ t, runEdges data.length s = .next t ∧ Received ⟨first, sent ++ data⟩ rest delivered t := by
  induction data generalizing sent s with
  | nil => exact ⟨s, rfl, by simpa using h⟩
  | cons b data ih =>
    have hmore : ¬ Request.complete ⟨first, sent⟩ = true := by
      rw [complete_iff] at hcomplete ⊢
      simp only [List.length_append, List.length_cons] at hcomplete
      dsimp only
      omega
    obtain ⟨u, hstep, hu⟩ := step_data_beat h hmore
    have happend : sent ++ b :: data = (sent ++ [b]) ++ data := by simp
    rw [happend] at hcomplete ⊢
    obtain ⟨t, hrun, ht⟩ := ih (sent ++ [b]) hcomplete hu
    exact ⟨t, by rw [List.length_cons, runEdges_succ _ hstep, hrun], ht⟩

/-- A BUSY unit through any number of edges on which LATENCY has not run out and nothing is offered. -/
theorem runEdges_latency {e : Edge} (hrst : e.rst = false) (hvalid : e.reqValid = false)
    (hlatency : e.latencyDone = false) (hcomplete : r.complete = true) (wait : Nat)
    (h : Received r (List.replicate wait e ++ rest) delivered s) :
    ∃ t, runEdges wait s = .next t ∧ Received r rest delivered t := by
  induction wait generalizing s with
  | zero => exact ⟨s, rfl, h⟩
  | succ wait ih =>
    have hbusy : s.phase = .busy := h.busy hcomplete
    have hscript : s.script = e :: (List.replicate wait e ++ rest) := h.script
    have hstep := (step_of_nothing_owed hscript hrst h.offered).trans (channelEdge_of_busy e hbusy)
    rw [hlatency] at hstep
    obtain ⟨t, hrun, ht⟩ := ih (s := noteOffer e { s with script := List.replicate wait e ++ rest, draw := s.draw + 1 })
      ⟨h.txn, by simp [hvalid], rfl, h.log, noteOffer_transactionOk (.inl hbusy) h.transaction e, h.phase⟩
    exact ⟨t, (runEdges_succ wait hstep).trans hrun, ht⟩

/-- The internal step and the edge that takes the response. -/
theorem runEdges_respond {e f : Edge}
    (he : e.rst = false ∧ e.reqValid = false ∧ e.latencyDone = true)
    (hf : f.rst = false ∧ f.reqValid = false ∧ f.rspReady = true) (hcomplete : r.complete = true)
    (h : Received r (e :: f :: rest) delivered s) :
    ∃ t, runEdges 2 s = .next t ∧ t.phase = .idle ∧ t.offered = none ∧ t.script = rest ∧
      t.log = delivered ++ [⟨some r, execRequest r⟩] ∧ t.txn = none := by
  obtain ⟨herst, hevalid, hlatency⟩ := he
  obtain ⟨hfrst, hfvalid, hready⟩ := hf
  have hinternal := (step_of_nothing_owed h.script herst h.offered).trans (channelEdge_of_busy e (h.busy hcomplete))
  rw [hlatency] at hinternal
  have hdeliver := step_of_nothing_owed (e := f) (rest := rest)
    (s := noteOffer e (internalStep { s with script := f :: rest, draw := s.draw + 1 })) rfl hfrst (by simp [hevalid])
  rw [channelEdge_of_respond f rfl, hready] at hdeliver
  refine ⟨_, (runEdges_succ 1 hinternal).trans (runEdges_succ 0 hdeliver), rfl, by simp [hfvalid], rfl, ?_, rfl⟩
  simp [h.log, h.txn, h.pending hcomplete]

end

/-- Settles O56: the run is cut at the first beat, the data beats, the wait, and the last two edges. -/
theorem wholeTransactionDeliversItsResponse : Obligations.WholeTransactionDeliversItsResponse := by
  intro r wait rest s hcomplete hphase hoffered hscript
  simp only [transactionScript, List.map_cons, List.cons_append, List.append_assoc, List.nil_append] at hscript
  obtain ⟨s₁, hfirst, h₁⟩ := step_first_beat hphase hoffered hscript
  obtain ⟨s₂, hdata, h₂⟩ := runEdges_data_beats r.data [] hcomplete h₁
  obtain ⟨s₃, hwait, h₃⟩ := runEdges_latency rfl rfl rfl hcomplete wait h₂
  obtain ⟨t, hlast, hidle, howed, hrest, hlog, htxn⟩ := runEdges_respond ⟨rfl, rfl, rfl⟩ ⟨rfl, rfl, rfl⟩ hcomplete h₃
  refine ⟨t, ?_, hidle, howed, hrest, hlog, by simp [State.runEnded, hidle, howed, htxn]⟩
  calc runEdges (1 + r.data.length + wait + 2) s
      = runEdges (r.data.length + wait + 2 + 1) s := by congr 1; omega
    _ = runEdges (r.data.length + wait + 2) s₁ := runEdges_succ _ hfirst
    _ = runEdges (wait + 2) s₂ := by rw [Nat.add_assoc, runEdges_add _ _ hdata]
    _ = runEdges 2 s₃ := runEdges_add _ _ hwait
    _ = .next t := hlast

end Sys2Proof.Machine

namespace Sys2Proof

/-! ### A beat's command word (30_encoding.md R71, R74) -/

theorem reservedField_cmdOf (x : Beat) : reservedField (cmdOf x) = x.extractLsb' 5 27 :=
  BitVec.extractLsb'_extractLsb'_of_le (by decide)

theorem opcodeField_cmdOf (x : Beat) : opcodeField (cmdOf x) = (x.extractLsb' 0 5).toNat :=
  congrArg BitVec.toNat (BitVec.extractLsb'_extractLsb'_of_le (by decide))

/-- R74 on the raw bits of a beat. -/
theorem legal_cmdOf_iff (x : Beat) :
    legal (cmdOf x) = true ↔
      x.extractLsb' 5 27 = 0 ∧ 1 ≤ (x.extractLsb' 0 5).toNat ∧ (x.extractLsb' 0 5).toNat ≤ 16 := by
  simp [legal, reservedField_cmdOf, opcodeField_cmdOf, and_assoc]

theorem commandWord_toNat (op : Opcode) : op.commandWord.toNat = op.code := by
  cases op <;> rfl

/-- The reserved bits and the opcode are the whole command word (R71). -/
theorem eq_commandWord {cmd : Word} {op : Opcode} (hreserved : reservedField cmd = 0)
    (hcode : opcodeField cmd = op.code) : cmd = op.commandWord := by
  have htop : cmd.toNat >>> 5 % 2 ^ 27 = 0 := by
    rw [← BitVec.extractLsb'_toNat]
    exact congrArg BitVec.toNat hreserved
  have hlow : cmd.toNat >>> 0 % 2 ^ 5 = op.code := by
    rw [← BitVec.extractLsb'_toNat]
    exact hcode
  have hlt : cmd.toNat < 2 ^ 32 := cmd.isLt
  apply BitVec.eq_of_toNat_eq
  rw [commandWord_toNat]
  rw [Nat.shiftRight_eq_div_pow] at htop hlow
  omega

/-! ### What the encoder writes is what the decoder reads -/

theorem fitsField_iff (n : Nat) : fitsField n = true ↔ n < 2 ^ 32 := decide_eq_true_iff

theorem fieldOf_toNat_of_fits {n : Nat} (h : fitsField n = true) : (fieldOf n).toNat = n := by
  rw [fieldOf, BitVec.toNat_ofNat, Nat.mod_eq_of_lt ((fitsField_iff n).mp h)]

/-- Operands that fit their fields survive the way through a beat (R72, R75). -/
theorem decode_beatOf_fields (op : Opcode) (a : Word) {b c : Nat} (hb : fitsField b = true) (hc : fitsField c = true) :
    decode (beatOf (fieldOf c) (fieldOf b) a op.commandWord) = .ok (op.withOperands a b c) := by
  rw [decode_beatOf, fieldOf_toNat_of_fits hb, fieldOf_toNat_of_fits hc]

/-- Zero, which the encoder writes in the fields a command ignores (R76), fits. -/
theorem fitsField_zero : fitsField 0 = true := rfl

/-- A length's bound `N_MAX` is what its field can hold (00_scope.md R8). -/
theorem wellFormed_findunique (n : Nat) : (Instr.findunique n).wellFormed = fitsField n :=
  decide_eq_decide.mpr (le_nMax_iff n)

/-- The commands grouped by the fields they use: A alone, B with or without A, both B and C, and FINDUNIQUE. -/
theorem decode_encode {i : Instr} (h : i.wellFormed = true) : decode (encode i) = .ok i := by
  cases i with
  | popcount word | highestbit word | tobinary word => exact decode_beatOf_fields _ word fitsField_zero fitsField_zero
  | singlebit n | runmask n => exact decode_beatOf_fields _ 0 h fitsField_zero
  | getbit word n | setbit word n | clearbit word n | togglebit word n | rotl word n | rotr word n | countruns word n
  | removebit word n => exact decode_beatOf_fields _ word h fitsField_zero
  | rangemask b c =>
    obtain ⟨hb, hc⟩ := Bool.and_eq_true_iff.mp h
    exact decode_beatOf_fields _ 0 hb hc
  | swapbits word b c =>
    obtain ⟨hb, hc⟩ := Bool.and_eq_true_iff.mp h
    exact decode_beatOf_fields _ word hb hc
  | findunique length =>
    rw [wellFormed_findunique] at h
    exact decode_beatOf_fields _ 0 h fitsField_zero

/-- Settles O3: each operand fits the field it is written to, so the decoder reads it back. -/
theorem decodeOfEncodeIsTheCommand : Obligations.DecodeOfEncodeIsTheCommand :=
  fun _ => decode_encode

/-! ### What the decoder reads is well formed -/

theorem cmdOf_encode_withOperands (op : Opcode) (a : Word) (b c : Nat) :
    cmdOf (encode (op.withOperands a b c)) = op.commandWord := by
  cases op <;> exact cmdOf_beatOf ..

theorem withOperands_wellFormed (op : Opcode) (a : Word) {b c : Nat} (hb : fitsField b = true)
    (hc : fitsField c = true) : (op.withOperands a b c).wellFormed = true := by
  cases op with
  | popcount | highestbit | tobinary => rfl
  | rangemask | swapbits => exact Bool.and_eq_true_iff.mpr ⟨hb, hc⟩
  | findunique => exact (wellFormed_findunique b).trans hb
  | _ => exact hb

/-- Settles O4: the command is its opcode's with the beat's fields as operands, which fit; its encoding has the opcode's
command word, the only legal one with that opcode. -/
theorem decodedCommandsAreWellFormed : Obligations.DecodedCommandsAreWellFormed := by
  intro x i hdecode
  obtain ⟨op, hreserved, hcode, rfl⟩ := (decode_eq_ok x i).mp hdecode
  have hwf := withOperands_wellFormed op (operandA x) ((fitsField_iff _).mpr (operandB_lt x))
    ((fitsField_iff _).mpr (operandC_lt x))
  refine ⟨hwf, ?_, decode_encode hwf⟩
  calc cmdOf (encode (op.withOperands (operandA x) (operandB x) (operandC x)))
      = op.commandWord := cmdOf_encode_withOperands op _ _ _
    _ = cmdOf x := (eq_commandWord hreserved hcode).symm

/-- Settles O1: the beats of R72's layout, with the fields named one by one, and a reserved bit is never ignored. -/
theorem specWordsDecodeToTheirCommands : Obligations.SpecWordsDecodeToTheirCommands :=
  ⟨decode_beatOf 0 3 0x12345678 .setbit, decode_beatOf 7 4 0 .rangemask, decode_beatOf 0x1F 0 0x80000000 .tobinary, rfl⟩

end Sys2Proof

namespace Sys2Proof.Machine

/-! ### First beats that are not legal, and the length of a transaction -/

theorem transactionLength_of_illegal {x : Beat} (h : legal (cmdOf x) = false) : transactionLength x = 1 :=
  if_neg (fun hc => by simp [h] at hc)

/-- A first beat that a host offers to an idle unit afresh, or has held for it, is transferred (10_state.md R38). -/
theorem step_eq_acceptCommand {s : State} {e : Edge} {rest : List Edge} (hscript : s.script = e :: rest)
    (hrst : e.rst = false) (hvalid : e.reqValid = true) (hphase : s.phase = .idle)
    (hoffered : s.offered = none ∨ s.offered = some e.reqData) :
    step s = acceptCommand e.reqData { s with script := rest, draw := s.draw + 1 } :=
  (step_eq_channelEdge hscript hrst (keepsHold_of_offered hvalid hoffered)).trans (channelEdge_of_idle hphase hvalid)

/-- Settles O2: legality on the raw bits is `legal`, and a beat that is not legal is answered at once. -/
theorem onlyLegalWordsAreCommands : Obligations.OnlyLegalWordsAreCommands := by
  refine ⟨fun x => (decode_ok_iff_legal x).trans (legal_cmdOf_iff x), fun x hx => ?_⟩
  rw [← legal_cmdOf_iff, Bool.not_eq_true] at hx
  refine ⟨transactionLength_of_illegal hx, fun s e rest hscript hrst hvalid hdata hphase hoffered => ?_⟩
  subst hdata
  have hnone : ∀ n, decode e.reqData = .ok (.findunique n) → n = 0 := by
    intro n h
    simp [((decode_eq_findunique_iff e.reqData n).mp h).1] at hx
  rw [step_eq_acceptCommand hscript hrst hvalid hphase hoffered, acceptCommand_answers hnone, execRequest_of_illegal hx]

/-- A whole request is what a stream decoder takes off the front of the stream (R78). -/
theorem takeRequest_append {r : Request} (h : r.complete = true) (rest : List Beat) :
    takeRequest (r.first :: r.data ++ rest) = some (r, rest) := by
  have hlength : transactionLength r.first - 1 = r.data.length := by
    have := (complete_iff r).mp h
    omega
  simp [takeRequest, hlength]

/-- Settles O5: R78's formula is `transactionLength` on the raw bits, and a whole request has that many beats. -/
theorem firstBeatTellsTheTransactionLength : Obligations.FirstBeatTellsTheTransactionLength := by
  refine ⟨fun x => ?_, fun r rest h => takeRequest_append h rest⟩
  exact if_congr (and_congr (legal_cmdOf_iff x) (by rw [opcodeField_cmdOf])) rfl rfl

end Sys2Proof.Machine

namespace Sys2Proof.Machine

/-! ### The string port, character by character (48_binary_renderer.md R261) -/

/-- The first character is the lowest byte. -/
theorem extractLsb'_packString_cons_zero (c : Ascii) (rest : List Ascii) :
    (packString (c :: rest)).extractLsb' 0 8 = c := by
  ext i hi
  have hport : i < 256 := by omega
  simp [packString, hi, hport]

/-- The other characters stand one byte higher than without the first. -/
theorem extractLsb'_packString_cons_succ (c : Ascii) (rest : List Ascii) {k : Nat} (hk : k < 31) :
    (packString (c :: rest)).extractLsb' (8 * (k + 1)) 8 = (packString rest).extractLsb' (8 * k) 8 := by
  ext i hi
  have hport : 8 * (k + 1) + i < 256 := by omega
  have habove : ¬ 8 * (k + 1) + i < 8 := by omega
  have hfirst : c.getLsbD (8 * (k + 1) + i) = false := BitVec.getLsbD_of_ge _ _ (by omega)
  have hbit : 8 * (k + 1) + i - 8 = 8 * k + i := by omega
  simp only [packString, BitVec.getElem_extractLsb', BitVec.getLsbD_or, BitVec.getLsbD_shiftLeft,
    BitVec.getLsbD_setWidth, hfirst, hbit]
  simp [hport, habove]

/-- Character k is in bits [8k+7:8k], with zero bytes above the string. -/
theorem extractLsb'_packString (str : List Ascii) {k : Nat} (hk : k < 32) :
    (packString str).extractLsb' (8 * k) 8 = (str[k]?).getD 0 := by
  induction str generalizing k with
  | nil => simp [packString]
  | cons c rest ih =>
    cases k with
    | zero => exact extractLsb'_packString_cons_zero c rest
    | succ k =>
      rw [extractLsb'_packString_cons_succ c rest (by omega), ih (by omega)]
      rfl

/-- What a host reads as character k. -/
theorem getElem?_unpackString (n : Nat) (packed : BitVec 256) (k : Nat) :
    (unpackString n packed)[k]? = if k < n then some (packed.extractLsb' (8 * k) 8) else none := by
  induction n generalizing packed k with
  | zero => simp [unpackString]
  | succ n ih =>
    cases k with
    | zero => simp [unpackString, BitVec.setWidth_eq_extractLsb']
    | succ k =>
      have hshift : (packed >>> 8).extractLsb' (8 * k) 8 = packed.extractLsb' (8 * (k + 1)) 8 := by
        ext i hi
        simp only [BitVec.getElem_extractLsb', BitVec.getLsbD_ushiftRight]
        congr 1
        omega
      simp [unpackString, ih, hshift]

/-- A string that fits the port is read back whole. -/
theorem unpackString_packString {str : List Ascii} (h : str.length ≤ 32) :
    unpackString str.length (packString str) = str := by
  apply List.ext_getElem?
  intro k
  rw [getElem?_unpackString]
  split
  · rename_i hk
    rw [extractLsb'_packString str (by omega), List.getElem?_eq_getElem hk]
    rfl
  · rename_i hk
    exact (List.getElem?_eq_none (Nat.le_of_not_lt hk)).symm

/-- The length port can hold every length a string may have. -/
theorem strlen_toNat {str : List Ascii} (h : str.length ≤ 32) :
    (BitVec.ofNat 6 str.length).toNat = str.length := by
  rw [BitVec.toNat_ofNat, Nat.mod_eq_of_lt (by omega)]

/-! ### Which responses show a string -/

/-- The response shows no string. -/
def Stringless (r : Response) : Prop := ∀ w str, r = .ok w str → str = []

theorem stringless_ok (w : Word) : Stringless (.ok w []) := fun _ _ h => by cases h; rfl

theorem stringless_err (e : ErrorStatus) : Stringless (.err e) := nofun

theorem stringless_ite {c : Prop} [Decidable c] {r r' : Response} (h : Stringless r) (h' : Stringless r') :
    Stringless (if c then r else r') := by
  split
  · exact h
  · exact h'

theorem highestbitResponse_stringless (word : Word) : Stringless (highestbitResponse word) := by
  unfold highestbitResponse
  split
  · exact stringless_err _
  · exact stringless_ok _

/-- Only TOBINARY shows a string (30_encoding.md R81). -/
theorem commandResponse_stringless {i : Instr} (h : ∀ word, i ≠ .tobinary word) (elements : List Word) :
    Stringless (commandResponse i elements) := by
  cases i with
  | tobinary word => exact absurd rfl (h word)
  | highestbit word => exact highestbitResponse_stringless word
  | popcount | rotl | rotr => exact stringless_ok _
  | rangemask => exact stringless_ite (stringless_err _) (stringless_ite (stringless_err _) (stringless_ok _))
  | runmask | countruns | swapbits | findunique => exact stringless_ite (stringless_err _) (stringless_ok _)
  | singlebit | getbit | setbit | clearbit | togglebit | removebit =>
    exact stringless_ite (stringless_ok _) (stringless_err _)

/-- An OK response shows no string, or it is TOBINARY's (48_binary_renderer.md R261). -/
theorem execRequest_ok_cases {r : Request} {w : Word} {str : List Ascii} (h : execRequest r = .ok w str) :
    str = [] ∨ ∃ x, decode r.first = .ok (.tobinary x) ∧ w = 0 ∧ str = binaryString x := by
  unfold execRequest at h
  split at h
  · rename_i i hdecode
    by_cases hi : ∃ x, i = .tobinary x
    · obtain ⟨x, rfl⟩ := hi
      cases h
      exact .inr ⟨x, hdecode, rfl, rfl⟩
    · exact .inl (commandResponse_stringless (fun x hx => hi ⟨x, hx⟩) _ w str h)
  · cases h

theorem execRequest_string_length_le {r : Request} {w : Word} {str : List Ascii} (h : execRequest r = .ok w str) :
    str.length ≤ 32 := by
  obtain rfl | ⟨x, -, -, rfl⟩ := execRequest_ok_cases h
  · exact Nat.zero_le _
  · exact binaryString_length_le x

theorem digit_cases (b : Bool) : digit b = 0x30#8 ∨ digit b = 0x31#8 := by
  cases b
  · exact .inl rfl
  · exact .inr rfl

theorem binaryString_digits {word : Word} {c : Ascii} (h : c ∈ binaryString word) : c = 0x30#8 ∨ c = 0x31#8 := by
  cases hp : highestBitIndex word with
  | none =>
    simp only [binaryString, hp, List.mem_singleton] at h
    exact h ▸ digit_cases false
  | some p =>
    rw [binaryString_eq hp] at h
    obtain ⟨i, -, rfl⟩ := List.mem_map.mp h
    exact digit_cases _

theorem rspFields_of_respond {s : State} (h : s.phase = .respond) : s.rspFields = responseFields s.pending :=
  if_pos ((rspValid_iff s).mpr h)

/-- Settles O40: the fields are those of the pending response, packed character by character, and only TOBINARY has
characters to show. -/
theorem responseFieldsShowTheResponse : Obligations.ResponseFieldsShowTheResponse := by
  refine ⟨fun s w str hphase hpending hlength => ?_, fun r w str h => ⟨execRequest_string_length_le h, ?_, ?_⟩⟩
  · rw [rspFields_of_respond hphase, hpending]
    exact ⟨rfl, rfl, strlen_toNat hlength, fun k hk => extractLsb'_packString str hk⟩
  · intro hne
    obtain hnil | ⟨x, hdecode, hw, -⟩ := execRequest_ok_cases h
    · exact absurd hnil hne
    · exact ⟨x, hdecode, hw⟩
  · intro c hc
    obtain rfl | ⟨x, -, -, rfl⟩ := execRequest_ok_cases h
    · exact absurd hc List.not_mem_nil
    · exact binaryString_digits hc

/-! ### The host's reading of a response -/

theorem readResponse_responseFields_ok (w : Word) {str : List Ascii} (h : str.length ≤ 32) :
    readResponse (responseFields (.ok w str)) = .ok (.ok w str) := by
  simp [readResponse, responseFields, strlen_toNat h, unpackString_packString h]

theorem readResponse_responseFields_err (e : ErrorStatus) :
    readResponse (responseFields (.err e)) = .ok (.err e) := by
  cases e <;> rfl

/-- The statuses a host can read are 0 to 4 (93 S9). -/
theorem readResponse_of_five_le {f : ResponseFields} (h : 5 ≤ f.status.toNat) :
    readResponse f = .error .statusNeverProduced := by
  unfold readResponse
  split
  case h_6 => rfl
  all_goals omega

/-- Settles O41: an error is read from its code, and an OK response's string fits the port, so it is read back whole. -/
theorem hostReadsBackTheResponse : Obligations.HostReadsBackTheResponse := by
  refine ⟨fun r => ?_, fun f h => readResponse_of_five_le h⟩
  cases hr : execRequest r with
  | ok w str => exact readResponse_responseFields_ok w (execRequest_string_length_le hr)
  | err e => exact readResponse_responseFields_err e

end Sys2Proof.Machine

namespace Sys2Proof.Machine

/-! ### The host's lines that have beats (30_encoding.md R83) -/

/-- The operands of a FINDUNIQUE are its sequence, and no other line is a FINDUNIQUE. -/
theorem commandOf_eq_findunique_iff {op : Opcode} {operands : List Nat} {i : Instr}
    (h : commandOf op operands = some i) (n : Nat) :
    i = .findunique n ↔ op = .findunique ∧ n = operands.length := by
  unfold commandOf at h
  split at h <;> cases h
  case h_15 => simp [eq_comm]
  all_goals simp

theorem commandOf_findunique (operands : List Nat) :
    commandOf .findunique operands = some (.findunique operands.length) := by
  simp [commandOf]

/-- The data beats of a line are as many as its first beat tells. -/
theorem complete_of_commandOf {op : Opcode} {operands : List Nat} {i : Instr} (h : commandOf op operands = some i)
    (hwf : i.wellFormed = true) :
    Request.complete
      ⟨encode i, if op = .findunique then operands.map (fun v => dataBeat (zext32 v)) else []⟩ = true := by
  have hdecode : decode (encode i) = .ok i := decode_encode hwf
  by_cases hop : op = .findunique
  · obtain rfl := (commandOf_eq_findunique_iff h _).mpr ⟨hop, rfl⟩
    rw [complete_iff_of_findunique hdecode, if_pos hop, List.length_map]
  · rw [if_neg hop]
    refine complete_of_first fun n hn => ?_
    have hi : i = .findunique n := Except.ok.inj (hdecode.symm.trans hn)
    exact absurd ((commandOf_eq_findunique_iff h n).mp hi).1 hop

theorem all_fitsField_toNat (words : List Word) : (words.map BitVec.toNat).all fitsField = true := by
  simp [fitsField_toNat]

@[simp] theorem zext32_toNat_word (w : Word) : zext32 w.toNat = w := by
  simp [zext32]

@[simp] theorem fieldOf_toNat_word (w : Word) : fieldOf w.toNat = w := by
  simp [fieldOf]

@[simp] theorem operandA_dataBeat (w : Word) : operandA (dataBeat w) = w := operandA_beatOf 0 0 w 0

/-- The data beats carry the sequence in their A fields (R77). -/
theorem map_operandA_map_dataBeat (elements : List Word) : (elements.map dataBeat).map operandA = elements := by
  simp [Function.comp_def]

/-- A FINDUNIQUE of a list of words has the beats of R83. -/
theorem assemble_findunique_eq {words : List Word} (h : words.length < 2 ^ 32) :
    assemble .findunique (words.map BitVec.toNat) =
      some ⟨encode (.findunique words.length), words.map dataBeat⟩ := by
  refine (assemble_eq_some _ _ _).mpr ⟨all_fitsField_toNat words, _, commandOf_findunique _, ?_, ?_⟩
  · rw [wellFormed_findunique, List.length_map]
    exact (fitsField_iff _).mpr h
  · simp

/-- A longer list has none (93 S10). -/
theorem assemble_findunique_of_too_long {operands : List Nat} (h : 2 ^ 32 ≤ operands.length) :
    assemble .findunique operands = none := by
  rw [Option.eq_none_iff_forall_ne_some]
  intro r hr
  obtain ⟨-, i, hcommand, hwf, -⟩ := (assemble_eq_some _ _ _).mp hr
  obtain rfl := (commandOf_eq_findunique_iff hcommand _).mpr ⟨rfl, rfl⟩
  rw [wellFormed_findunique, fitsField_iff] at hwf
  omega

/-- Settles O58: the first beat decodes to the line's command, which tells how many data beats follow, and FINDUNIQUE of a
list of words is `encodeFindUnique` of it. -/
theorem assembledLinesAreWholeRequests : Obligations.AssembledLinesAreWholeRequests := by
  refine ⟨fun op operands r h => ?_, fun elements hlength => ?_, fun operands => assemble_findunique_of_too_long,
    encodeFindUnique_of_too_long⟩
  · obtain ⟨-, i, hcommand, hwf, rfl⟩ := (assemble_eq_some op operands r).mp h
    exact ⟨complete_of_commandOf hcommand hwf, i, decode_encode hwf, hcommand⟩
  · exact ⟨_, assemble_findunique_eq hlength, encodeFindUnique_of_fits elements hlength, rfl, List.length_map ..,
      map_operandA_map_dataBeat elements⟩

/-! ### Each operand in its field (30_encoding.md R73) -/

/-- A line of one beat whose operands are words: it has the beat of the command they make. -/
theorem assemble_of_words {op : Opcode} {words : List Word} {i : Instr} {b : Beat} (hop : op ≠ .findunique)
    (hcommand : commandOf op (words.map BitVec.toNat) = some i) (hwf : i.wellFormed = true) (hencode : encode i = b) :
    assemble op (words.map BitVec.toNat) = some ⟨b, []⟩ :=
  (assemble_eq_some _ _ _).mpr ⟨all_fitsField_toNat words, i, hcommand, hwf, by rw [if_neg hop, hencode]⟩

/-- Settles O59: for each command its operands as words, with the check that its B and C operands fit; what remains is
that the encoder writes these words to the fields of R73. -/
theorem operandsGoToTheirFields : Obligations.OperandsGoToTheirFields := by
  refine ⟨fun a b c => ?_, assemble_of_too_large⟩
  have hb : fitsField b.toNat = true := fitsField_toNat b
  have hbc : (fitsField b.toNat && fitsField c.toNat) = true := Bool.and_eq_true_iff.mpr ⟨hb, fitsField_toNat c⟩
  refine ⟨assemble_of_words (words := [b]) nofun rfl hb ?singlebit,
    assemble_of_words (words := [b]) nofun rfl hb ?runmask,
    assemble_of_words (words := [b, c]) nofun rfl hbc ?rangemask,
    assemble_of_words (words := [a, b]) nofun rfl hb ?getbit,
    assemble_of_words (words := [a, b]) nofun rfl hb ?setbit,
    assemble_of_words (words := [a, b]) nofun rfl hb ?clearbit,
    assemble_of_words (words := [a, b]) nofun rfl hb ?togglebit,
    assemble_of_words (words := [a]) nofun rfl rfl ?popcount,
    assemble_of_words (words := [a]) nofun rfl rfl ?highestbit,
    assemble_of_words (words := [a, b]) nofun rfl hb ?rotl,
    assemble_of_words (words := [a, b]) nofun rfl hb ?rotr,
    assemble_of_words (words := [a, b]) nofun rfl hb ?countruns,
    assemble_of_words (words := [a, b, c]) nofun rfl hbc ?swapbits,
    assemble_of_words (words := [a, b]) nofun rfl hb ?removebit,
    assemble_of_words (words := [a]) nofun rfl rfl ?tobinary⟩
  all_goals
    simp only [encode, fieldOf_toNat_word, zext32_toNat_word]
    rfl

/-! ### Names (30_encoding.md R83, R84) -/

theorem operandValue_of_ok {bindings : List (Option Response)} {k : Nat} {w : Word} {str : List Ascii}
    (h : bindings[k]? = some (some (.ok w str))) :
    operandValue bindings (.boundBy k) = operandValue bindings (.literal w.toNat) := by
  simp [operandValue, h, valueOf]

theorem operandValue_of_err {bindings : List (Option Response)} {k : Nat} {e : ErrorStatus}
    (h : bindings[k]? = some (some (.err e))) : operandValue bindings (.boundBy k) = none := by
  simp [operandValue, h, valueOf]

theorem operandValue_of_no_response {bindings : List (Option Response)} {k : Nat} (h : bindings[k]? = some none) :
    operandValue bindings (.boundBy k) = none := by
  simp [operandValue, h]

theorem operandValue_of_no_line {bindings : List (Option Response)} {k : Nat} (h : bindings.length ≤ k) :
    operandValue bindings (.boundBy k) = none := by
  simp [operandValue, List.getElem?_eq_none h]

/-- A line's beats depend on its operands through their values alone. -/
theorem lineRequest_congr (bindings : List (Option Response)) (op : Opcode) (before after : List HostOperand)
    {o o' : HostOperand} (h : operandValue bindings o = operandValue bindings o') :
    lineRequest bindings ⟨op, before ++ o :: after⟩ = lineRequest bindings ⟨op, before ++ o' :: after⟩ := by
  simp [lineRequest, List.mapM_append, List.mapM_cons, h]

/-- Settles O60: a name has its result's value, or none, and a line's beats depend on its operands' values alone. -/
theorem namesStandForTheirResults : Obligations.NamesStandForTheirResults := by
  refine ⟨fun bindings op before after k w str hk => ?_, fun bindings l k hm hk => ?_, fun bindings l k hm hk => ?_⟩
  · exact lineRequest_congr bindings op before after (operandValue_of_ok hk)
  · exact lineRequest_of_no_value bindings l _ hm (operandValue_of_no_response hk)
  · exact lineRequest_of_no_value bindings l _ hm (operandValue_of_no_line hk)

/-- A line that has beats binds its name to their response. -/
theorem runLines_singleton {bindings : List (Option Response)} {l : HostLine} {r : Request}
    (h : lineRequest bindings l = some r) : runLines bindings [l] = bindings ++ [some (execRequest r)] := by
  simp [runLines, h]

/-- Settles O57: the name is bound to the response whatever it is, and an error response has no value to send. -/
theorem errorBindsNoValue : Obligations.ErrorBindsNoValue := by
  refine ⟨fun bindings l r e hline herr => ?_, fun bindings l k e hm hk => ?_⟩
  · rw [runLines_singleton hline, herr]
  · exact lineRequest_of_no_value bindings l _ hm (operandValue_of_err hk)

end Sys2Proof.Machine

namespace Sys2Proof.Machine

/-! ### What the mask commands answer (40_mask_builder.md) -/

/-- A command that is no FINDUNIQUE answers its response in every state (10_state.md R38). -/
theorem answers_of_commandResponse {i : Instr} {r : Response} (hi : ∀ n, i ≠ .findunique n)
    (hr : commandResponse i [] = r) : Answers i r := fun s => by
  rw [(exec_eq_conclude i s hi).1, hr, conclude_eq]

theorem singlebit_answers_mask {index : Nat} (h : index < 32) :
    Answers (.singlebit index) (.ok (singleBitF index) []) :=
  answers_of_commandResponse nofun (if_pos (decide_eq_true h))

theorem singlebit_answers_error {index : Nat} (h : 32 ≤ index) :
    Answers (.singlebit index) (.err .indexOutOfRange) :=
  answers_of_commandResponse nofun (if_neg fun hin => absurd (of_decide_eq_true hin) (Nat.not_lt.mpr h))

theorem runmask_answers_mask {count : Nat} (h : count ≤ 32) :
    Answers (.runmask count) (.ok (runMaskF count) []) :=
  answers_of_commandResponse nofun (if_neg (Nat.not_lt.mpr h))

theorem runmask_answers_error {count : Nat} (h : 32 < count) :
    Answers (.runmask count) (.err .invalidRunLength) :=
  answers_of_commandResponse nofun (if_pos h)

theorem rangemask_answers_mask {lo hi : Nat} (hle : lo ≤ hi) (hhi : hi < 32) :
    Answers (.rangemask lo hi) (.ok (runMaskF (hi + 1) &&& ~~~runMaskF lo) []) := by
  have hlo : lo < 32 := hle.trans_lt hhi
  exact answers_of_commandResponse nofun (by simp [commandResponse, rangemaskResponse, hlo, hhi, Nat.not_lt.mpr hle])

theorem rangemask_answers_error {lo hi : Nat} (h : 32 ≤ lo ∨ 32 ≤ hi ∨ hi < lo) :
    Answers (.rangemask lo hi) (.err .indexOutOfRange) := by
  refine answers_of_commandResponse nofun ?_
  simp only [commandResponse, rangemaskResponse, indexInRange_eq]
  obtain hlo | hhi | hlt := h
  · simp [Nat.not_lt.mpr hlo]
  · simp [Nat.not_lt.mpr hhi]
  · simp [hlt]

/-! ### The masks, bit by bit -/

/-- A run mask without a shorter one has the bits between their lengths (R106). -/
theorem getLsbD_runMaskF_and_not {m n : Nat} (hm : m ≤ 32) (hn : n ≤ 32) (k : Nat) :
    (runMaskF n &&& ~~~runMaskF m).getLsbD k = decide (m ≤ k ∧ k < n) := by
  rw [BitVec.getLsbD_and, BitVec.getLsbD_not, getLsbD_runMaskF hm, getLsbD_runMaskF hn]
  by_cases hk : k < n
  · have hk32 : k < 32 := by omega
    simp [hk, hk32, ← decide_not]
  · simp [hk]

/-- Settles O6: the answer is `singleBitF(index)`, which has only that bit. -/
theorem singlebitSetsOneBit : Obligations.SinglebitSetsOneBit :=
  ⟨fun a b c => decode_beatOf c b a .singlebit, fun index s =>
    ⟨fun h => ⟨singleBitF index, singlebit_answers_mask h s, getLsbD_singleBitF h⟩,
      fun h => singlebit_answers_error h s⟩⟩

/-- Settles O7: the answer is `runMaskF(count)`, which has the bits below the count. -/
theorem runmaskSetsTheLowestBits : Obligations.RunmaskSetsTheLowestBits :=
  ⟨fun a b c => decode_beatOf c b a .runmask, fun count s =>
    ⟨fun h => ⟨runMaskF count, runmask_answers_mask h s, getLsbD_runMaskF h⟩,
      fun h => runmask_answers_error h s⟩⟩

/-- Settles O8: the answer is the run mask up to `hi` without the run mask below `lo`. -/
theorem rangemaskSetsTheInclusiveRange : Obligations.RangemaskSetsTheInclusiveRange := by
  refine ⟨fun a b c => decode_beatOf c b a .rangemask, fun lo hi s =>
    ⟨fun hle hhi => ⟨_, rangemask_answers_mask hle hhi s, fun k => ?_⟩, fun h => rangemask_answers_error h s⟩⟩
  rw [getLsbD_runMaskF_and_not (hle.trans hhi.le) hhi]
  simp only [Nat.lt_succ_iff]

/-! ### Laws of the masks (R101, R106) -/

theorem popcount_answers_count {w : Word} {n : Nat} (h : countOnes w = n) :
    Answers (.popcount w) (.ok (zext32 n) []) :=
  answers_of_commandResponse nofun (by rw [commandResponse, popcountResponse, h])

theorem highestbit_answers_index {w : Word} {p : Nat} (h : highestBitIndex w = some p) :
    Answers (.highestbit w) (.ok (zext32 p) []) :=
  answers_of_commandResponse nofun (by simp [commandResponse, highestbitResponse, h])

/-- The set of positions counted is `{i}`. -/
theorem countOnes_singleBitF {i : Nat} (h : i < 32) : countOnes (singleBitF i) = 1 := by
  rw [countOnes_eq_card, Finset.card_eq_one]
  refine ⟨i, Finset.ext fun k => ?_⟩
  rw [Finset.mem_filter, getLsbD_singleBitF h, Finset.mem_range, Finset.mem_singleton, decide_eq_true_iff]
  exact and_iff_right_of_imp fun hk => hk ▸ h

theorem highestBitIndex_singleBitF {i : Nat} (h : i < 32) : highestBitIndex (singleBitF i) = some i := by
  rw [highestBitIndex_eq_some]
  simp only [getLsbD_singleBitF h, decide_eq_true_eq, decide_eq_false_iff_not]
  exact ⟨trivial, fun k hk => hk.ne'⟩

/-- Clearing bits that are all set borrows nothing. -/
theorem and_not_eq_sub {x y : Word} (h : ∀ k, y.getLsbD k = true → x.getLsbD k = true) : x &&& ~~~y = x - y := by
  have hdisjoint : (x &&& ~~~y) &&& y = 0#32 := by
    rw [BitVec.and_assoc, BitVec.and_comm (~~~y), BitVec.and_not_self]
    exact BitVec.and_zero
  have hunion : (x &&& ~~~y) ||| y = x := by
    refine BitVec.eq_of_getLsbD_eq fun k hk => ?_
    simp only [BitVec.getLsbD_or, BitVec.getLsbD_and, BitVec.getLsbD_not, hk]
    cases hy : y.getLsbD k with
    | false => simp
    | true => simp [h k hy]
  rw [eq_sub_iff_add_eq, BitVec.add_eq_or_of_and_eq_zero _ _ hdisjoint, hunion]

/-- The bits of a run mask are bits of every longer one. -/
theorem runMaskF_and_not_eq_sub {m n : Nat} (hmn : m ≤ n) (hn : n ≤ 32) :
    runMaskF n &&& ~~~runMaskF m = runMaskF n - runMaskF m := by
  refine and_not_eq_sub fun k hk => ?_
  rw [getLsbD_runMaskF (hmn.trans hn), decide_eq_true_iff] at hk
  rw [getLsbD_runMaskF hn, decide_eq_true_iff]
  exact hk.trans_le hmn

/-- Settles O29: the one bit of a single-bit mask is its count and its highest bit, and the shorter of the two run masks
lies inside the longer one, so leaving it out is subtracting it. -/
theorem maskLaws : Obligations.MaskLaws := by
  refine ⟨fun i hi => ?singlebit, fun lo hi hle hhi => ?rangemask, rfl, ?fullmask⟩
  case singlebit =>
    exact ⟨singleBitF i, singlebit_answers_mask hi, popcount_answers_count (countOnes_singleBitF hi),
      highestbit_answers_index (highestBitIndex_singleBitF hi)⟩
  case rangemask =>
    have hrange := rangemask_answers_mask hle hhi
    refine ⟨_, _, runmask_answers_mask (hle.trans hhi.le), runmask_answers_mask hhi, hrange, ?_⟩
    exact runMaskF_and_not_eq_sub (Nat.le_succ_of_le hle) hhi ▸ hrange
  case fullmask =>
    have hones : runMaskF 32 = 0xFFFFFFFF#32 := by decide
    exact hones ▸ runmask_answers_mask (le_refl 32)

end Sys2Proof.Machine

namespace Sys2Proof.Machine

/-! ### What the bit accessors answer (41_bit_accessor.md) -/

/-- A command that checks one index answers its value when the index is in range (60_exceptions.md R301). -/
theorem answers_of_index_lt {i : Instr} {index : Nat} {r e : Response} (hi : ∀ n, i ≠ .findunique n)
    (hr : commandResponse i [] = if indexInRange index then r else e) (h : index < 32) : Answers i r :=
  answers_of_commandResponse hi (hr.trans (if_pos (decide_eq_true h)))

/-- A command that checks one index answers its error when the index is out of range (60_exceptions.md R301). -/
theorem answers_of_le_index {i : Instr} {index : Nat} {r e : Response} (hi : ∀ n, i ≠ .findunique n)
    (hr : commandResponse i [] = if indexInRange index then r else e) (h : 32 ≤ index) : Answers i e :=
  answers_of_commandResponse hi (hr.trans (if_neg fun hin => absurd (of_decide_eq_true hin) (Nat.not_lt.mpr h)))

section
variable (w : Word) {index : Nat}

theorem getbit_answers_bit (h : index < 32) :
    Answers (.getbit w index) (.ok (if w.getLsbD index then 1 else 0) []) :=
  shr_and_one w h ▸ answers_of_index_lt nofun rfl h

theorem setbit_answers_word (h : index < 32) : Answers (.setbit w index) (.ok (w ||| singleBitF index) []) :=
  answers_of_index_lt nofun rfl h

theorem clearbit_answers_word (h : index < 32) : Answers (.clearbit w index) (.ok (w &&& ~~~singleBitF index) []) :=
  answers_of_index_lt nofun rfl h

theorem togglebit_answers_word (h : index < 32) : Answers (.togglebit w index) (.ok (w ^^^ singleBitF index) []) :=
  answers_of_index_lt nofun rfl h

theorem getbit_answers_error (h : 32 ≤ index) : Answers (.getbit w index) (.err .indexOutOfRange) :=
  answers_of_le_index nofun rfl h

theorem setbit_answers_error (h : 32 ≤ index) : Answers (.setbit w index) (.err .indexOutOfRange) :=
  answers_of_le_index nofun rfl h

theorem clearbit_answers_error (h : 32 ≤ index) : Answers (.clearbit w index) (.err .indexOutOfRange) :=
  answers_of_le_index nofun rfl h

theorem togglebit_answers_error (h : 32 ≤ index) : Answers (.togglebit w index) (.err .indexOutOfRange) :=
  answers_of_le_index nofun rfl h

/-! ### The accessors' words, bit by bit -/

theorem getLsbD_or_singleBitF (h : index < 32) (k : Nat) :
    (w ||| singleBitF index).getLsbD k = (w.getLsbD k || decide (k = index)) := by
  rw [BitVec.getLsbD_or, getLsbD_singleBitF h]

theorem getLsbD_xor_singleBitF (h : index < 32) (k : Nat) :
    (w ^^^ singleBitF index).getLsbD k = (w.getLsbD k ^^ decide (k = index)) := by
  rw [BitVec.getLsbD_xor, getLsbD_singleBitF h]

/-- Past the word's width the complement has no bit, and neither has the word. -/
theorem getLsbD_and_not_singleBitF (h : index < 32) (k : Nat) :
    (w &&& ~~~singleBitF index).getLsbD k = (w.getLsbD k && !decide (k = index)) := by
  rw [BitVec.getLsbD_and, BitVec.getLsbD_not, getLsbD_singleBitF h]
  by_cases hk : k < 32
  · simp [hk]
  · simp [BitVec.getLsbD_of_ge w k (Nat.not_lt.mp hk)]

end

/-- Settles O9: the lowest bit of the shifted word is the addressed bit. -/
theorem getbitReadsOneBit : Obligations.GetbitReadsOneBit :=
  ⟨fun a b c => decode_beatOf c b a .getbit, fun w _ s =>
    ⟨fun h => getbit_answers_bit w h s, fun h => getbit_answers_error w h s⟩⟩

/-- Settles O10: the answer is the word with the single bit joined to it. -/
theorem setbitSetsOneBitOfTheWord : Obligations.SetbitSetsOneBitOfTheWord :=
  ⟨fun a b c => decode_beatOf c b a .setbit, fun w _ s =>
    ⟨fun h => ⟨_, setbit_answers_word w h s, getLsbD_or_singleBitF w h⟩, fun h => setbit_answers_error w h s⟩⟩

/-- Settles O11: the answer is the word without the single bit. -/
theorem clearbitClearsOneBitOfTheWord : Obligations.ClearbitClearsOneBitOfTheWord :=
  ⟨fun a b c => decode_beatOf c b a .clearbit, fun w _ s =>
    ⟨fun h => ⟨_, clearbit_answers_word w h s, getLsbD_and_not_singleBitF w h⟩, fun h => clearbit_answers_error w h s⟩⟩

/-- Settles O12: the answer is the exclusive or of the word with the single bit. -/
theorem togglebitInvertsOneBitOfTheWord : Obligations.TogglebitInvertsOneBitOfTheWord :=
  ⟨fun a b c => decode_beatOf c b a .togglebit, fun w _ s =>
    ⟨fun h => ⟨_, togglebit_answers_word w h s, getLsbD_xor_singleBitF w h⟩, fun h => togglebit_answers_error w h s⟩⟩

/-! ### Laws of the bit accessors (R125, R127) -/

theorem getbit_answers_one {w : Word} {index : Nat} (h : index < 32) (hbit : w.getLsbD index = true) :
    Answers (.getbit w index) (.ok 1 []) := by
  simpa [hbit] using getbit_answers_bit w h

theorem getbit_answers_zero {w : Word} {index : Nat} (h : index < 32) (hbit : w.getLsbD index = false) :
    Answers (.getbit w index) (.ok 0 []) := by
  simpa [hbit] using getbit_answers_bit w h

/-- Settles O22: the addressed bit of the set word is 1 and of the cleared word 0, and the two toggles cancel. -/
theorem bitAccessorLaws : Obligations.BitAccessorLaws := by
  refine ⟨fun w i h => ⟨?set, ?clear, ?toggle⟩, fun w i h => ?outOfRange⟩
  case set =>
    have hbit : (w ||| singleBitF i).getLsbD i = true := by simp [getLsbD_or_singleBitF w h]
    exact ⟨_, setbit_answers_word w h, getbit_answers_one h hbit⟩
  case clear =>
    have hbit : (w &&& ~~~singleBitF i).getLsbD i = false := by simp [getLsbD_and_not_singleBitF w h]
    exact ⟨_, clearbit_answers_word w h, getbit_answers_zero h hbit⟩
  case toggle =>
    have hcancel : w ^^^ singleBitF i ^^^ singleBitF i = w := by
      rw [BitVec.xor_assoc, BitVec.xor_self, BitVec.xor_zero]
    have htwice := togglebit_answers_word (w ^^^ singleBitF i) h
    rw [hcancel] at htwice
    exact ⟨_, togglebit_answers_word w h, htwice⟩
  case outOfRange =>
    exact ⟨getbit_answers_error w h, setbit_answers_error w h, clearbit_answers_error w h, togglebit_answers_error w h⟩

/-- Inverting the set bits among those of the mask leaves none of them. -/
theorem clearByXorOfAnd_eq (w : Word) (i : Nat) : clearByXorOfAnd w i = w &&& ~~~singleBitF i := by
  ext k hk
  simp only [clearByXorOfAnd, BitVec.getElem_xor, BitVec.getElem_and, BitVec.getElem_not]
  cases w[k] <;> simp

/-- Inverting the mask's bits once all of them are set leaves none of them. -/
theorem clearBySetThenXor_eq (w : Word) (i : Nat) : clearBySetThenXor w i = w &&& ~~~singleBitF i := by
  ext k hk
  simp only [clearBySetThenXor, BitVec.getElem_xor, BitVec.getElem_or, BitVec.getElem_and, BitVec.getElem_not]
  cases w[k] <;> simp

/-- Settles O25: both formulas are the word without the single bit. -/
theorem clearbitStrategiesAgree : Obligations.ClearbitStrategiesAgree := fun w i h =>
  ⟨clearByXorOfAnd_eq w i ▸ clearbit_answers_word w h, clearBySetThenXor_eq w i ▸ clearbit_answers_word w h⟩

end Sys2Proof.Machine

namespace Sys2Proof.Machine

/-- Settles O13: the count of positions that hold a 1 fits the result word. -/
theorem popcountCountsTheSetBits : Obligations.PopcountCountsTheSetBits :=
  ⟨fun a b c => decode_beatOf c b a .popcount, fun w s =>
    ⟨zext32 (countOnes w), popcount_answers_count rfl s,
      (zext32_toNat ((countOnes_le w).trans_lt (by decide))).trans (countOnes_eq_card w)⟩⟩

/-! ### The bit-scan (42_popcount.md R141) -/

theorem and_one_toNat (v : Word) : (v &&& 1).toNat = (bitAt v 0).toNat := by
  have hshift := shr_and_one v (i := 0) (by decide)
  rw [shr_of_lt v (by decide), BitVec.ushiftRight_zero] at hshift
  rw [hshift, bitAt]
  cases v.getLsbD 0 <;> rfl

theorem bitAt_shr_one (v : Word) (i : Nat) : bitAt (shr v 1) i = bitAt v (i + 1) := by
  rw [bitAt, bitAt, shr_of_lt v (by decide), BitVec.getLsbD_ushiftRight, Nat.add_comm]

/-- Counting below `rounds + 1` is testing position 0 and counting one position further up. -/
theorem countP_range_succ_eq (p : Nat → Bool) (rounds : Nat) :
    (List.range (rounds + 1)).countP p = (p 0).toNat + (List.range rounds).countP (fun i => p (i + 1)) := by
  rw [List.range_succ_eq_map, List.countP_cons, List.countP_map, Nat.add_comm]
  cases p 0 <;> rfl

/-- So many rounds count the set bits among so many lowest positions. -/
theorem bitScanCount_eq (rounds n : Nat) (v : Word) :
    bitScanCount rounds n v = n + (List.range rounds).countP (bitAt v) := by
  induction rounds generalizing n v with
  | zero => rfl
  | succ rounds ih =>
    have hshifted : bitAt (shr v 1) = fun i => bitAt v (i + 1) := funext (bitAt_shr_one v)
    rw [bitScanCount, ih, and_one_toNat, hshifted, Nat.add_assoc, ← countP_range_succ_eq]

theorem bitScanCount_eq_countOnes (w : Word) : bitScanCount 32 0 w = countOnes w :=
  (bitScanCount_eq 32 0 w).trans (Nat.zero_add _)

/-! ### Kernighan's loop (42_popcount.md R142) -/

theorem exists_lowest_set_bit {w : Word} (h : w ≠ 0) :
    ∃ p, w.getLsbD p = true ∧ ∀ k < p, w.getLsbD k = false := by
  have hset : ∃ p, w.getLsbD p = true := by
    by_contra hnone
    rw [not_exists] at hnone
    exact h (BitVec.eq_of_getLsbD_eq fun k _ => by simp [hnone k])
  exact ⟨Nat.find hset, Nat.find_spec hset, fun k hk => Bool.eq_false_of_not_eq_true (Nat.find_min hset hk)⟩

/-- `2^p - 1` is the run mask of the positions below p (R103). -/
theorem singleBitF_sub_one {p : Nat} (h : p < 32) : singleBitF p - 1 = runMaskF p := by
  have hone : (1 : Word).toNat = 1 := rfl
  refine sub_eq_iff_eq_add.mpr (BitVec.eq_of_toNat_eq ?_)
  calc (singleBitF p).toNat = 2 ^ p % 2 ^ 32 := by
        rw [singleBitF, shl_of_lt 1 h, BitVec.toNat_shiftLeft, hone, Nat.one_shiftLeft]
    _ = (2 ^ p - 1 + 1) % 2 ^ 32 := by rw [Nat.sub_add_cancel Nat.one_le_two_pow]
    _ = (runMaskF p + 1).toNat := by rw [BitVec.toNat_add, runMaskF_toNat h.le, hone]

section
variable {w : Word} {p : Nat}

theorem and_runMaskF_eq_zero (hp : p ≤ 32) (hbelow : ∀ k < p, w.getLsbD k = false) : w &&& runMaskF p = 0#32 := by
  refine BitVec.eq_of_getLsbD_eq fun k _ => ?_
  rw [BitVec.getLsbD_and, getLsbD_runMaskF hp]
  by_cases hk : k < p
  · simp [hbelow k hk]
  · simp [hk]

/-- A borrow runs up to the lowest set bit: that bit becomes 0 and the bits below it, all 0, become 1. -/
theorem sub_one_eq_of_lowest_set_bit (hset : w.getLsbD p = true) (hbelow : ∀ k < p, w.getLsbD k = false) :
    w - 1 = (w &&& ~~~singleBitF p) ||| runMaskF p := by
  have hp : p < 32 := BitVec.lt_of_getLsbD hset
  have hdisjoint : (w &&& ~~~singleBitF p) &&& runMaskF p = 0#32 := by
    rw [BitVec.and_assoc, BitVec.and_comm (~~~singleBitF p), ← BitVec.and_assoc, and_runMaskF_eq_zero hp.le hbelow,
      BitVec.zero_and]
  have hbit : ∀ k, (singleBitF p).getLsbD k = true → w.getLsbD k = true := fun k hk => by
    rw [getLsbD_singleBitF hp, decide_eq_true_iff] at hk
    exact hk ▸ hset
  calc w - 1 = (w - singleBitF p) + (singleBitF p - 1) := (sub_add_sub_cancel ..).symm
    _ = (w &&& ~~~singleBitF p) + runMaskF p := by rw [and_not_eq_sub hbit, singleBitF_sub_one hp]
    _ = (w &&& ~~~singleBitF p) ||| runMaskF p := BitVec.add_eq_or_of_and_eq_zero _ _ hdisjoint

/-- One round of the loop clears the lowest set bit. -/
theorem and_sub_one_eq_of_lowest_set_bit (hset : w.getLsbD p = true) (hbelow : ∀ k < p, w.getLsbD k = false) :
    w &&& (w - 1) = w &&& ~~~singleBitF p := by
  have hp : p < 32 := BitVec.lt_of_getLsbD hset
  rw [sub_one_eq_of_lowest_set_bit hset hbelow, BitVec.and_or_distrib_left, and_runMaskF_eq_zero hp.le hbelow,
    ← BitVec.and_assoc, BitVec.and_self, BitVec.or_zero]

/-- The set of positions counted loses the cleared one. -/
theorem countOnes_and_not_singleBitF (hset : w.getLsbD p = true) :
    countOnes (w &&& ~~~singleBitF p) + 1 = countOnes w := by
  have hp : p < 32 := BitVec.lt_of_getLsbD hset
  have hmem : p ∈ (Finset.range 32).filter (fun i => w.getLsbD i = true) :=
    Finset.mem_filter.mpr ⟨Finset.mem_range.mpr hp, hset⟩
  have herase : (Finset.range 32).filter (fun i => (w &&& ~~~singleBitF p).getLsbD i = true) =
      ((Finset.range 32).filter (fun i => w.getLsbD i = true)).erase p := by
    ext k
    simp only [Finset.mem_filter, Finset.mem_erase, getLsbD_and_not_singleBitF w hp, Bool.and_eq_true,
      Bool.not_eq_true', decide_eq_false_iff_not]
    tauto
  rw [countOnes_eq_card, countOnes_eq_card, herase, Finset.card_erase_add_one hmem]

end

theorem countOnes_and_sub_one {w : Word} (h : w ≠ 0) : countOnes (w &&& (w - 1)) + 1 = countOnes w := by
  obtain ⟨p, hset, hbelow⟩ := exists_lowest_set_bit h
  rw [and_sub_one_eq_of_lowest_set_bit hset hbelow, countOnes_and_not_singleBitF hset]

theorem countOnes_zero : countOnes 0 = 0 := by decide

/-- Each round clears one of the set bits, so the loop is done after as many rounds as there are. -/
theorem kernighanCount_eq {rounds : Nat} (n : Nat) {v : Word} (h : countOnes v ≤ rounds) :
    kernighanCount rounds n v = n + countOnes v := by
  induction rounds generalizing n v with
  | zero => rw [kernighanCount, Nat.le_zero.mp h, Nat.add_zero]
  | succ rounds ih =>
    rw [kernighanCount]
    split
    · next hv => rw [hv, countOnes_zero, Nat.add_zero]
    · next hv =>
      have hround := countOnes_and_sub_one hv
      rw [ih (n + 1) (by omega)]
      omega

/-- Settles O23: both strategies count the set bits, each of them once. -/
theorem popcountStrategiesAgree : Obligations.PopcountStrategiesAgree := by
  refine ⟨fun w => ⟨?bitScan, fun rounds hrounds => ?kernighan⟩, popcount_answers_count countOnes_zero, ?full⟩
  case bitScan => exact popcount_answers_count (bitScanCount_eq_countOnes w).symm
  case kernighan =>
    rw [bitScanCount_eq_countOnes] at hrounds
    exact popcount_answers_count (by rw [kernighanCount_eq 0 hrounds, Nat.zero_add])
  case full =>
    obtain ⟨-, -, -, hfull⟩ := maskLaws
    exact ⟨_, hfull, popcount_answers_count (by decide)⟩

end Sys2Proof.Machine

namespace Sys2Proof.Machine

/-! ### The highest set bit (43_highest_bit.md R160) -/

theorem exists_highestBitIndex {w : Word} (h : w ≠ 0) : ∃ p, highestBitIndex w = some p :=
  Option.ne_none_iff_exists'.mp (mt (highestBitIndex_eq_none w).mp h)

theorem highestbit_answers_error : Answers (.highestbit 0) (.err .emptyInput) :=
  answers_of_commandResponse nofun (by rw [commandResponse, highestbitResponse, (highestBitIndex_eq_none 0).mpr rfl])

section
variable {w : Word} {p : Nat} (h : highestBitIndex w = some p)
include h

theorem getLsbD_highestBitIndex : w.getLsbD p = true :=
  ((highestBitIndex_eq_some w p).mp h).1

theorem getLsbD_of_highestBitIndex_lt {k : Nat} (hk : p < k) : w.getLsbD k = false :=
  ((highestBitIndex_eq_some w p).mp h).2 k hk

theorem highestBitIndex_lt : p < 32 := BitVec.lt_of_getLsbD (getLsbD_highestBitIndex h)

theorem le_highestBitIndex {k : Nat} (hk : w.getLsbD k = true) : k ≤ p := by
  by_contra hgt
  simp [getLsbD_of_highestBitIndex_lt h (Nat.not_le.mp hgt)] at hk

theorem two_pow_highestBitIndex_le : 2 ^ p ≤ w.toNat := Nat.ge_two_pow_of_testBit (getLsbD_highestBitIndex h)

theorem lt_two_pow_highestBitIndex_succ : w.toNat < 2 ^ (p + 1) :=
  Nat.lt_pow_two_of_testBit _ fun _ hk => getLsbD_of_highestBitIndex_lt h hk

end

/-- Settles O14: a nonzero word has a highest set bit, whose index fits the result word. -/
theorem highestbitLocatesTheTopBit : Obligations.HighestbitLocatesTheTopBit := by
  refine ⟨fun a b c => decode_beatOf c b a .highestbit, fun w s => ⟨fun hw => ?nonzero, fun hw => ?zero⟩⟩
  case nonzero =>
    obtain ⟨p, hp⟩ := exists_highestBitIndex hw
    have hlt : p < 32 := highestBitIndex_lt hp
    refine ⟨zext32 p, highestbit_answers_index hp s, ?_⟩
    rw [zext32_toNat (hlt.trans (by decide))]
    exact ⟨Nat.le_of_lt_succ hlt, getLsbD_highestBitIndex hp, fun k => getLsbD_of_highestBitIndex_lt hp,
      two_pow_highestBitIndex_le hp, lt_two_pow_highestBitIndex_succ hp⟩
  case zero => exact hw ▸ highestbit_answers_error s

/-! ### The strategies (R161 to R163) -/

/-- The last element that passes, kept on the way up, is the first one met on the way down. -/
theorem foldl_keep_last_eq_find_reverse (f : Nat → Bool) (l : List Nat) :
    l.foldl (fun p i => if f i then some i else p) none = l.reverse.find? f := by
  induction l using List.reverseRecOn with
  | nil => rfl
  | append_singleton l a ih =>
    rw [List.foldl_append, ih, List.reverse_append, List.reverse_singleton, List.singleton_append, List.find?_cons]
    cases hf : f a <;> simp [hf]

theorem highestByScan_eq (w : Word) : highestByScan w = highestBitIndex w :=
  foldl_keep_last_eq_find_reverse _ _

theorem singleBitF_toNat {k : Nat} (hk : k < 32) : (singleBitF k).toNat = 2 ^ k := by
  have hone : (1 : Word).toNat = 1 := rfl
  rw [singleBitF, shl_of_lt 1 hk, BitVec.toNat_shiftLeft, hone, Nat.one_shiftLeft,
    Nat.mod_eq_of_lt (Nat.pow_lt_pow_right (by decide) hk)]

theorem shr_singleBitF_one {k : Nat} (hk : k + 1 < 32) : shr (singleBitF (k + 1)) 1 = singleBitF k := by
  refine BitVec.eq_of_getLsbD_eq fun i _ => ?_
  rw [shr_of_lt _ (by decide), BitVec.getLsbD_ushiftRight, getLsbD_singleBitF hk,
    getLsbD_singleBitF (Nat.lt_of_succ_lt hk), Nat.add_comm 1 i]
  simp only [Nat.add_right_cancel_iff]

/-- The mask test of R163 is a test of the one bit. -/
theorem and_singleBitF_eq_iff (w : Word) {k : Nat} (hk : k < 32) :
    w &&& singleBitF k = singleBitF k ↔ w.getLsbD k = true := by
  constructor
  · intro hmask
    have hbit : (w &&& singleBitF k).getLsbD k = true := by rw [hmask, getLsbD_singleBitF hk, decide_eq_true rfl]
    rw [BitVec.getLsbD_and, Bool.and_eq_true_iff] at hbit
    exact hbit.1
  · intro hbit
    refine BitVec.eq_of_getLsbD_eq fun i _ => ?_
    rw [BitVec.getLsbD_and, getLsbD_singleBitF hk]
    by_cases hi : i = k
    · simp [hi, hbit]
    · simp [hi]

section
variable {w : Word} {p : Nat} (h : highestBitIndex w = some p)
include h

/-- The threshold test of R162 compares the powers of two that bound the word. -/
theorem lt_singleBitF_iff {k : Nat} (hk : k < 32) : w < singleBitF k ↔ p < k := by
  rw [BitVec.lt_def, singleBitF_toNat hk]
  constructor
  · intro hlt
    exact (Nat.pow_lt_pow_iff_right (by decide)).mp ((two_pow_highestBitIndex_le h).trans_lt hlt)
  · intro hlt
    exact (lt_two_pow_highestBitIndex_succ h).trans_le (Nat.pow_le_pow_right (by decide) hlt)

/-- Each round halves the threshold `2^k`, which stays above the highest set bit until k is its index. -/
theorem highestByThreshold_singleBitF_eq {rounds k : Nat} (hp : p ≤ k) (hk : k < 32) (hrounds : k ≤ p + rounds) :
    highestByThreshold w rounds (singleBitF k) k = p := by
  induction rounds generalizing k with
  | zero => exact Nat.le_antisymm hrounds hp
  | succ rounds ih =>
    simp only [highestByThreshold, lt_singleBitF_iff h hk]
    split
    · next hlt =>
      obtain ⟨j, rfl⟩ := Nat.exists_eq_add_one_of_ne_zero (Nat.ne_zero_of_lt hlt)
      rw [shr_singleBitF_one hk, Nat.add_sub_cancel]
      exact ih (Nat.le_of_lt_succ hlt) (Nat.lt_of_succ_lt hk) (Nat.le_of_succ_le_succ hrounds)
    · next hge => exact Nat.le_antisymm (Nat.not_lt.mp hge) hp

/-- The loop passes over the bits above the highest set bit, which are all 0. -/
theorem highestByMask_eq {k : Nat} (hp : p ≤ k) (hk : k < 32) : highestByMask w k = p := by
  induction k with
  | zero => exact (Nat.le_zero.mp hp).symm
  | succ k ih =>
    have hmask : w &&& shl 1 (k + 1) = shl 1 (k + 1) ↔ w.getLsbD (k + 1) = true := and_singleBitF_eq_iff w hk
    simp only [highestByMask, ne_eq, hmask]
    split
    · next hclear =>
      have hne : p ≠ k + 1 := fun heq => hclear (heq ▸ getLsbD_highestBitIndex h)
      exact ih (Nat.le_of_lt_succ (Nat.lt_of_le_of_ne hp hne)) (Nat.lt_of_succ_lt hk)
    · next hset => exact Nat.le_antisymm (le_highestBitIndex h (not_not.mp hset)) hp

end

/-- Settles O24: the scan keeps the last set bit, and the other strategies come down from bit 31 to the highest one. -/
theorem highestbitStrategiesAgree : Obligations.HighestbitStrategiesAgree := by
  refine ⟨fun w hw => ?_, highestbit_answers_error⟩
  obtain ⟨p, hp⟩ := exists_highestBitIndex hw
  have hlt : p < 32 := highestBitIndex_lt hp
  have hle : p ≤ 31 := Nat.le_of_lt_succ hlt
  have htop : singleBitF 31 = 0x80000000#32 := by decide
  refine ⟨p, hlt, highestbit_answers_index hp, (highestByScan_eq w).trans hp, fun rounds hrounds => ?threshold,
    highestByMask_eq hp hle (by decide)⟩
  case threshold => exact htop ▸ highestByThreshold_singleBitF_eq hp hle (by decide) (by omega)

end Sys2Proof.Machine

namespace Sys2Proof.Machine

/-! ### What the rotations answer (44_rotate.md) -/

theorem rotl_answers_word (w : Word) (c : Nat) : Answers (.rotl w c) (.ok (rotateLeft w c) []) :=
  answers_of_commandResponse nofun rfl

theorem rotr_answers_word (w : Word) (c : Nat) : Answers (.rotr w c) (.ok (rotateRight w c) []) :=
  answers_of_commandResponse nofun rfl

/-- Settles O15: the answer is the word rotated left, whatever the count. -/
theorem rotlMovesEveryBitUp : Obligations.RotlMovesEveryBitUp :=
  ⟨fun a b c => decode_beatOf c b a .rotl, fun w c s =>
    ⟨rotateLeft w c, rotl_answers_word w c s, fun _ => getLsbD_rotateLeft w c⟩⟩

/-- Settles O16: the answer is the word rotated right, whatever the count. -/
theorem rotrMovesEveryBitDown : Obligations.RotrMovesEveryBitDown :=
  ⟨fun a b c => decode_beatOf c b a .rotr, fun w c s =>
    ⟨rotateRight w c, rotr_answers_word w c s, fun _ => getLsbD_rotateRight w c⟩⟩

/-! ### Moving every position by a count modulo 32 -/

theorem exists_add_mod_eq (c : Nat) {k : Nat} (hk : k < 32) : ∃ j < 32, (j + c) % 32 = k :=
  ⟨(k + (32 - c % 32)) % 32, Nat.mod_lt _ (by decide), by omega⟩

theorem add_mod_injOn (c : Nat) {i j : Nat} (hi : i < 32) (hj : j < 32) (h : (i + c) % 32 = (j + c) % 32) : i = j := by
  omega

/-- A count and its complement move a position around the whole word. -/
theorem add_mod_add_complement_mod (c : Nat) {k : Nat} (hk : k < 32) :
    ((k + c) % 32 + (32 - c % 32) % 32) % 32 = k := by
  omega

/-! ### Laws of the rotations (R184) -/

/-- The bits R180 gives a rotated word are all its bits. -/
theorem eq_rotateLeft {w r : Word} {c : Nat} (h : ∀ k < 32, r.getLsbD ((k + c) % 32) = w.getLsbD k) :
    r = rotateLeft w c := by
  refine BitVec.eq_of_getLsbD_eq fun k hk => ?_
  obtain ⟨j, hj, rfl⟩ := exists_add_mod_eq c hk
  rw [h j hj, getLsbD_rotateLeft w c hj]

theorem rotateLeft_rotateRight (w : Word) (c : Nat) : rotateLeft (rotateRight w c) c = w :=
  (eq_rotateLeft fun _ hk => (getLsbD_rotateRight w c hk).symm).symm

theorem rotateRight_rotateLeft (w : Word) (c : Nat) : rotateRight (rotateLeft w c) c = w :=
  BitVec.eq_of_getLsbD_eq fun _ hk => by rw [getLsbD_rotateRight _ c hk, getLsbD_rotateLeft w c hk]

theorem rotateRight_complement (w : Word) (c : Nat) : rotateRight w ((32 - c % 32) % 32) = rotateLeft w c :=
  eq_rotateLeft fun k hk => by
    rw [getLsbD_rotateRight w _ (Nat.mod_lt _ (by decide)), add_mod_add_complement_mod c hk]

theorem rotateLeft_zero (w : Word) : rotateLeft w 0 = w := rfl

/-- The set positions of the word and of the rotated word correspond one to one. -/
theorem countOnes_rotateLeft (w : Word) (c : Nat) : countOnes (rotateLeft w c) = countOnes w := by
  rw [countOnes_eq_card, countOnes_eq_card]
  refine (Finset.card_nbij (fun k => (k + c) % 32) (fun k hk => ?maps) (fun i hi j hj => ?injective)
    (fun k hk => ?surjective)).symm
  case maps =>
    obtain ⟨hlt, hset⟩ := Finset.mem_filter.mp hk
    refine Finset.mem_filter.mpr ⟨Finset.mem_range.mpr (Nat.mod_lt _ (by decide)), ?_⟩
    rw [getLsbD_rotateLeft w c (Finset.mem_range.mp hlt), hset]
  case injective =>
    exact add_mod_injOn c (Finset.mem_range.mp (Finset.mem_filter.mp hi).1)
      (Finset.mem_range.mp (Finset.mem_filter.mp hj).1)
  case surjective =>
    obtain ⟨hlt, hset⟩ := Finset.mem_filter.mp hk
    obtain ⟨j, hj, rfl⟩ := exists_add_mod_eq c (Finset.mem_range.mp hlt)
    rw [getLsbD_rotateLeft w c hj] at hset
    exact ⟨j, Finset.mem_filter.mpr ⟨Finset.mem_range.mpr hj, hset⟩, rfl⟩

/-- Settles O26: the two rotations move the positions in opposite directions around a circle of 32. -/
theorem rotationLaws : Obligations.RotationLaws := by
  refine fun w c => ⟨⟨_, rotr_answers_word w c, ?rotlAfterRotr⟩, ⟨_, rotl_answers_word w c, ?rotrAfterRotl⟩, ?rotlZero,
    ⟨_, rotl_answers_word w c, ?complement⟩, ⟨_, _, rotl_answers_word w c, popcount_answers_count rfl, ?bitCount⟩⟩
  case rotlAfterRotr => simpa only [rotateLeft_rotateRight] using rotl_answers_word (rotateRight w c) c
  case rotrAfterRotl => simpa only [rotateRight_rotateLeft] using rotr_answers_word (rotateLeft w c) c
  case rotlZero => simpa only [rotateLeft_zero] using rotl_answers_word w 0
  case complement => simpa only [rotateRight_complement] using rotr_answers_word w ((32 - c % 32) % 32)
  case bitCount => exact popcount_answers_count (countOnes_rotateLeft w c)

end Sys2Proof.Machine

namespace Sys2Proof.Machine

/-! ### What COUNTRUNS answers (45_run_matcher.md) -/

section
variable {n : Nat}

theorem countruns_answers_count (w : Word) (hpos : 1 ≤ n) (hle : n ≤ 32) :
    Answers (.countruns w n) (.ok (zext32 (countWindows w n)) []) :=
  answers_of_commandResponse nofun (if_neg (not_or.mpr ⟨Nat.ne_of_gt hpos, Nat.not_lt.mpr hle⟩))

theorem countruns_answers_error (w : Word) (h : n = 0 ∨ 32 < n) :
    Answers (.countruns w n) (.err .invalidRunLength) :=
  answers_of_commandResponse nofun (if_pos h)

/-! ### The windows (R200) -/

/-- A position of R200, for a run length of at least 1, is one whose window ends within the word. -/
theorem mem_windowPositions (hpos : 1 ≤ n) (hle : n ≤ 32) {p : Nat} (hp : p ∈ List.range (32 - n + 1)) :
    p < 32 ∧ p + n ≤ 32 := by
  have hlt := List.mem_range.mp hp
  omega

theorem countWindows_le (w : Word) (n : Nat) : countWindows w n ≤ 32 - n + 1 :=
  List.countP_le_length.trans_eq List.length_range

theorem countWindows_eq_card (w : Word) (hpos : 1 ≤ n) (hle : n ≤ 32) :
    countWindows w n =
      ((Finset.range (32 - n + 1)).filter (fun p => ∀ j < n, w.getLsbD (p + j) = true)).card := by
  refine (countP_range_eq_card _ _).trans (congrArg Finset.card (Finset.filter_congr fun p hp => ?_))
  exact windowMatches_iff w hle (mem_windowPositions hpos hle (List.mem_range.mpr (Finset.mem_range.mp hp))).1

/-- Settles O17: the windows that match are those whose bits are all ones, and their number fits the result word. -/
theorem countrunsCountsTheWindows : Obligations.CountrunsCountsTheWindows :=
  ⟨fun a b c => decode_beatOf c b a .countruns, fun w n s =>
    ⟨fun hpos hle => ⟨_, countruns_answers_count w hpos hle s,
      (zext32_toNat ((countWindows_le w n).trans_lt (by omega))).trans (countWindows_eq_card w hpos hle)⟩,
      fun h => countruns_answers_error w h s⟩⟩

/-! ### The placement of the pattern and the run length 1 (R201) -/

/-- The pattern shifted left to p has the bits of the window at p; none is shifted out when the window ends within the
word. -/
theorem getLsbD_shl_runMaskF {p : Nat} (hp : p < 32) (hend : p + n ≤ 32) (k : Nat) :
    (shl (runMaskF n) p).getLsbD k = decide (p ≤ k ∧ k < p + n) := by
  rw [shl_of_lt _ hp, BitVec.getLsbD_shiftLeft, getLsbD_runMaskF (by omega), Bool.eq_iff_iff]
  simp only [Bool.and_eq_true, Bool.not_eq_true', decide_eq_true_eq, decide_eq_false_iff_not]
  omega

/-- R201: the left-shifted pattern also matches exactly when the bits of the window are all ones. -/
theorem windowMatchesPattern_iff (w : Word) {p : Nat} (hp : p < 32) (hend : p + n ≤ 32) :
    windowMatchesPattern w (runMaskF n) p = true ↔ ∀ j < n, w.getLsbD (p + j) = true := by
  rw [windowMatchesPattern, beq_iff_eq]
  constructor
  · intro h j hj
    have hbit := congrArg (fun x => x.getLsbD (p + j)) h
    simpa [getLsbD_shl_runMaskF hp hend, hj] using hbit
  · intro h
    refine BitVec.eq_of_getLsbD_eq fun k _ => ?_
    rw [BitVec.getLsbD_and, getLsbD_shl_runMaskF hp hend]
    by_cases hk : p ≤ k ∧ k < p + n
    · have hset := h (k - p) (by omega)
      rw [Nat.add_sub_cancel' hk.1] at hset
      rw [hset, Bool.true_and]
    · rw [decide_eq_false hk, Bool.and_false]

/-- Both placements match the same windows. -/
theorem countWindowsByPattern_eq (w : Word) (hpos : 1 ≤ n) (hle : n ≤ 32) :
    countWindowsByPattern w n = countWindows w n :=
  List.countP_congr fun _ hp => by
    obtain ⟨hlt, hend⟩ := mem_windowPositions hpos hle hp
    rw [windowMatchesPattern_iff w hlt hend, windowMatches_iff w hle hlt]

/-- A window of one bit matches when that bit is 1. -/
theorem countWindows_one (w : Word) : countWindows w 1 = countOnes w :=
  List.countP_congr fun p hp => by
    rw [windowMatches_iff w (by decide) (List.mem_range.mp hp), bitAt]
    simp only [Nat.lt_one_iff, forall_eq, Nat.add_zero]

end

/-- Settles O27: the two placements count the same windows, and the windows of one bit are the set bits. -/
theorem countrunsPlacementsAgree : Obligations.CountrunsPlacementsAgree :=
  ⟨fun w _ hpos hle => countWindowsByPattern_eq w hpos hle ▸ countruns_answers_count w hpos hle,
    fun w => ⟨_, countruns_answers_count w (le_refl 1) (by decide), popcount_answers_count (countWindows_one w).symm⟩⟩

end Sys2Proof.Machine

namespace Sys2Proof.Machine

/-! ### What the bit rearranger answers (46_bit_rearranger.md) -/

section
variable (w : Word) {i j : Nat}

theorem swapbits_answers_word (hi : i < 32) (hj : j < 32) : Answers (.swapbits w i j) (.ok (swapBits w i j) []) :=
  answers_of_commandResponse nofun (by simp [commandResponse, swapbitsResponse, hi, hj])

theorem swapbits_answers_error (h : 32 ≤ i ∨ 32 ≤ j) : Answers (.swapbits w i j) (.err .indexOutOfRange) :=
  answers_of_commandResponse nofun (if_pos (by simpa using h))

theorem removebit_answers_word (h : i < 32) : Answers (.removebit w i) (.ok (removeBit w i) []) :=
  answers_of_index_lt nofun rfl h

theorem removebit_answers_error (h : 32 ≤ i) : Answers (.removebit w i) (.err .indexOutOfRange) :=
  answers_of_le_index nofun rfl h

/-- R223: the bit that would move down into bit 31 is past the word's width, so bit 31 becomes 0. -/
theorem getLsbD_removeBit_top (h : i < 32) : (removeBit w i).getLsbD 31 = false := by
  rw [getLsbD_removeBit w h (by decide), if_neg (Nat.not_lt.mpr (Nat.le_of_lt_succ h)),
    BitVec.getLsbD_of_ge w _ (le_refl 32)]

end

/-- Settles O18: the answer is the word with the two bits exchanged, once both indices are in range. -/
theorem swapbitsExchangesTwoBits : Obligations.SwapbitsExchangesTwoBits :=
  ⟨fun a b c => decode_beatOf c b a .swapbits, fun w _ _ s =>
    ⟨fun hi hj => ⟨_, swapbits_answers_word w hi hj s, getLsbD_swapBits w hi hj⟩,
      fun h => swapbits_answers_error w h s⟩⟩

/-- Settles O19: the bits at and above the index come from one position further up, and for bit 31 there is none. -/
theorem removebitClosesTheGap : Obligations.RemovebitClosesTheGap :=
  ⟨fun a b c => decode_beatOf c b a .removebit, fun w _ s =>
    ⟨fun h => ⟨_, removebit_answers_word w h s, fun _ hk => getLsbD_removeBit w h (Nat.lt_succ_of_lt hk),
      getLsbD_removeBit_top w h⟩, fun h => removebit_answers_error w h s⟩⟩

/-! ### Laws of the bit rearranger (R221, R223): both commands move whole positions -/

theorem countOnes_eq_sum (w : Word) : countOnes w = ∑ k : Fin 32, (w.getLsbD k).toNat := by
  rw [countOnes_eq_card, Finset.card_filter, Finset.sum_range]
  exact Finset.sum_congr rfl fun k _ => by cases w.getLsbD k <;> rfl

section
variable (w : Word) (i j : Fin 32)

/-- SWAPBITS permutes the positions by the transposition of its indices. -/
theorem getLsbD_swapBits_eq_swap (k : Fin 32) : (swapBits w i j).getLsbD k = w.getLsbD (Equiv.swap i j k) := by
  rw [getLsbD_swapBits w i.isLt j.isLt, Equiv.swap_apply_def]
  simp only [Fin.val_inj, apply_ite Fin.val]

theorem swapBits_swapBits : swapBits (swapBits w i j) i j = w :=
  BitVec.eq_of_getLsbD_eq fun k hk => by
    rw [getLsbD_swapBits_eq_swap _ i j ⟨k, hk⟩, getLsbD_swapBits_eq_swap, ← Equiv.trans_apply, Equiv.swap_swap,
      Equiv.refl_apply]

theorem swapBits_comm : swapBits w i j = swapBits w j i :=
  BitVec.eq_of_getLsbD_eq fun k hk => by
    rw [getLsbD_swapBits_eq_swap w i j ⟨k, hk⟩, getLsbD_swapBits_eq_swap w j i ⟨k, hk⟩, Equiv.swap_comm]

theorem countOnes_swapBits : countOnes (swapBits w i j) = countOnes w := by
  simp only [countOnes_eq_sum, getLsbD_swapBits_eq_swap]
  exact Equiv.sum_comp (Equiv.swap i j) fun k => (w.getLsbD k).toNat

/-- REMOVEBIT takes its 31 lower bits from the positions other than the index, in order. -/
theorem getLsbD_removeBit_eq_succAbove (k : Fin 31) : (removeBit w i).getLsbD k = w.getLsbD (i.succAbove k) := by
  rw [getLsbD_removeBit w i.isLt (Nat.lt_succ_of_lt k.isLt), Fin.succAbove]
  split <;> rename_i h
  · rw [if_pos (Fin.lt_def.mpr h), Fin.val_castSucc]
  · rw [if_neg (mt Fin.lt_def.mp h), Fin.val_succ]

/-- The set bits of the word are those of the shortened word and, when it is set, the removed one. -/
theorem countOnes_eq_removeBit_add : countOnes w = countOnes (removeBit w i) + (w.getLsbD i).toNat := by
  have hshort : countOnes (removeBit w i) = ∑ k : Fin 31, (w.getLsbD (i.succAbove k)).toNat := by
    rw [countOnes_eq_sum, Fin.sum_univ_castSucc, Fin.val_last, getLsbD_removeBit_top w i.isLt]
    simp only [Fin.val_castSucc, getLsbD_removeBit_eq_succAbove, Bool.toNat_false, Nat.add_zero]
  rw [countOnes_eq_sum w, Fin.sum_univ_succAbove _ i, hshort, Nat.add_comm]

end

/-- Settles O28: SWAPBITS permutes the positions by a transposition, and REMOVEBIT leaves out one position. -/
theorem bitRearrangerLaws : Obligations.BitRearrangerLaws := by
  refine ⟨fun w i j hi hj => ?swap, fun w i hi => ?remove⟩
  case swap =>
    have hback := swapbits_answers_word (swapBits w i j) hi hj
    have hflipped := swapbits_answers_word w hj hi
    rw [swapBits_swapBits w ⟨i, hi⟩ ⟨j, hj⟩] at hback
    rw [swapBits_comm w ⟨j, hj⟩ ⟨i, hi⟩] at hflipped
    exact ⟨_, _, swapbits_answers_word w hi hj, hback, hflipped, popcount_answers_count rfl,
      popcount_answers_count (countOnes_swapBits w ⟨i, hi⟩ ⟨j, hj⟩)⟩
  case remove =>
    refine ⟨_, _, _, _, removebit_answers_word w hi, popcount_answers_count rfl, popcount_answers_count rfl,
      getbit_answers_bit w hi, ?_⟩
    have hfits (v : Word) : countOnes v < 2 ^ 32 := (countOnes_le v).trans_lt (by decide)
    have hbit : (if w.getLsbD i then 1 else 0 : Word).toNat = (w.getLsbD i).toNat := by cases w.getLsbD i <;> rfl
    rw [zext32_toNat (hfits _), zext32_toNat (hfits _), hbit]
    exact countOnes_eq_removeBit_add w ⟨i, hi⟩

end Sys2Proof.Machine

namespace Sys2Proof.Machine

/-! ### The XOR fold (47_unique_finder.md R240, R241) -/

theorem xorFold_cons (acc w : Word) (elements : List Word) :
    xorFold acc (w :: elements) = xorFold (acc ^^^ w) elements := rfl

theorem xorFold_perm {xs ys : List Word} (h : xs.Perm ys) (acc : Word) : xorFold acc xs = xorFold acc ys :=
  h.foldl_eq' (fun x _ y _ z => by rw [BitVec.xor_assoc, BitVec.xor_comm x y, BitVec.xor_assoc]) acc

/-- Bit by bit, the XOR of a sequence is a sum in the ring of Booleans, where addition is exclusive or. -/
theorem getLsbD_xorFold_eq_sum (elements : List Word) (k : Nat) :
    (xorFold 0 elements).getLsbD k = (elements.map (·.getLsbD k)).sum := by
  induction elements with
  | nil => exact BitVec.getLsbD_zero
  | cons w elements ih =>
    have hfirst : (0 : Word) ^^^ w = w := BitVec.zero_xor
    rw [xorFold_cons, hfirst, xorFold_start, BitVec.getLsbD_xor, ih, List.map_cons, List.sum_cons]
    rfl

/-- Only the parity of a multiplicity counts in an exclusive or. -/
theorem bool_nsmul_eq_mod_two_nsmul (n : Nat) (b : Bool) : n • b = (n % 2) • b :=
  nsmul_eq_mod_nsmul n ((two_nsmul b).trans (BooleanRing.add_self b))

/-- R241: the elements of even multiplicity cancel. -/
theorem xorFold_eq_of_count_odd {elements : List Word} {x : Word} (hodd : elements.count x % 2 = 1)
    (heven : ∀ y, y ≠ x → elements.count y % 2 = 0) : xorFold 0 elements = x := by
  refine BitVec.eq_of_getLsbD_eq fun k _ => ?_
  calc (xorFold 0 elements).getLsbD k
      = (elements.map (·.getLsbD k)).sum := getLsbD_xorFold_eq_sum elements k
    _ = ∑ y ∈ elements.toFinset, elements.count y • y.getLsbD k := Finset.sum_list_map_count _ _
    _ = elements.count x • x.getLsbD k := by
      refine Finset.sum_eq_single x (fun y _ hy => ?_) (fun hx => ?_)
      · rw [bool_nsmul_eq_mod_two_nsmul, heven y hy, zero_nsmul]
      · rw [List.count_eq_zero.mpr (mt List.mem_toFinset.mpr hx), zero_nsmul]
    _ = x.getLsbD k := by rw [bool_nsmul_eq_mod_two_nsmul, hodd, one_nsmul]

/-! ### A whole FINDUNIQUE request -/

theorem execRequest_encode_findunique {elements : List Word} (h : elements.length < 2 ^ 32) :
    execRequest ⟨encode (.findunique elements.length), elements.map dataBeat⟩ =
      finduniqueResponse elements.length elements := by
  have hwf : (Instr.findunique elements.length).wellFormed = true :=
    (wellFormed_findunique _).trans ((fitsField_iff _).mpr h)
  rw [execRequest_of_findunique (decode_encode hwf), map_operandA_map_dataBeat]

theorem map_execRequest_encodeFindUnique {elements : List Word} (h : elements.length < 2 ^ 32) :
    (encodeFindUnique elements).map execRequest = some (finduniqueResponse elements.length elements) := by
  rw [encodeFindUnique_of_fits elements h, Option.map_some, execRequest_encode_findunique h]

theorem finduniqueResponse_of_ne_nil {elements : List Word} (h : elements ≠ []) :
    finduniqueResponse elements.length elements = .ok (xorFold 0 elements) [] :=
  if_neg (mt List.length_eq_zero_iff.mp h)

/-- A nonempty sequence that a request can carry is answered with its XOR (R240). -/
theorem encodeFindUnique_answers_xorFold {elements : List Word} (hne : elements ≠ [])
    (hlen : elements.length < 2 ^ 32) :
    ∃ r, encodeFindUnique elements = some r ∧ execRequest r = .ok (xorFold 0 elements) [] :=
  ⟨_, encodeFindUnique_of_fits elements hlen,
    (execRequest_encode_findunique hlen).trans (finduniqueResponse_of_ne_nil hne)⟩

/-- Settles O31: the elements of even multiplicity cancel in the XOR, which is the answer of every nonempty sequence. -/
theorem finduniqueFindsTheOddOneOut : Obligations.FinduniqueFindsTheOddOneOut := by
  refine ⟨fun elements x hlen hodd heven => ?_, fun _ => encodeFindUnique_answers_xorFold⟩
  have hne : elements ≠ [] := by
    rintro rfl
    simp at hodd
  simpa only [xorFold_eq_of_count_odd hodd heven] using encodeFindUnique_answers_xorFold hne hlen

theorem finduniqueResponse_perm {xs ys : List Word} (h : xs.Perm ys) (n : Nat) :
    finduniqueResponse n xs = finduniqueResponse n ys := by
  rw [finduniqueResponse, finduniqueResponse, xorFold_perm h]

/-- Settles O32: the order matters neither to the length, which decides whether there are beats, nor to the XOR. -/
theorem finduniqueIgnoresTheOrder : Obligations.FinduniqueIgnoresTheOrder := by
  intro xs ys h
  have hlen : xs.length = ys.length := h.length_eq
  by_cases hfits : xs.length < 2 ^ 32
  · rw [map_execRequest_encodeFindUnique hfits, map_execRequest_encodeFindUnique (hlen ▸ hfits),
      finduniqueResponse_perm h, hlen]
  · have hlong : 2 ^ 32 ≤ xs.length := Nat.not_lt.mp hfits
    rw [encodeFindUnique_of_too_long xs hlong, encodeFindUnique_of_too_long ys (hlen ▸ hlong)]

/-! ### The collection, beat by beat (10_state.md R38) -/

theorem step_collect {s : State} {e : Edge} {rest : List Edge} (hphase : s.phase = .collect)
    (hoffered : s.offered = none) (hscript : s.script = e :: rest) (hrst : e.rst = false) (hvalid : e.reqValid = true) :
    step s = .next (collectBeat e.reqData { s with script := rest, draw := s.draw + 1 }) :=
  (step_of_nothing_owed hscript hrst hoffered).trans (channelEdge_of_collect hphase hvalid)

/-- A unit that expects as many data beats as there are edges to come folds them into what it has collected so far. -/
theorem runEdges_collect_xorFold (edges rest : List Edge) (s : State) (hne : edges ≠ [])
    (hbeats : ∀ e ∈ edges, e.rst = false ∧ e.reqValid = true) (hphase : s.phase = .collect)
    (hremaining : s.remaining = edges.length) (hoffered : s.offered = none) (hscript : s.script = edges ++ rest) :
    ∃ t, runEdges edges.length s = .next t ∧ t.phase = .busy ∧ t.script = rest ∧ t.log = s.log ∧
      t.pending = .ok (xorFold s.acc (edges.map (fun e => operandA e.reqData))) [] := by
  induction edges generalizing s with
  | nil => exact absurd rfl hne
  | cons e edges ih =>
    obtain ⟨⟨hrst, hvalid⟩, hbeats⟩ := List.forall_mem_cons.mp hbeats
    have hstep := step_collect hphase hoffered hscript hrst hvalid
    have hleft : s.remaining - 1 = edges.length := by rw [hremaining, List.length_cons, Nat.add_sub_cancel]
    rw [List.length_cons, runEdges_succ _ hstep]
    by_cases hlast : edges = []
    · subst hlast
      exact ⟨_, rfl, by simp [hleft], by simp, by simp, by simp [hleft, xorFold]⟩
    · have hmore : edges.length ≠ 0 := mt List.length_eq_zero_iff.mp hlast
      obtain ⟨t, hrun, hbusy, hrest, hlog, hpending⟩ :=
        ih (collectBeat e.reqData { s with script := edges ++ rest, draw := s.draw + 1 }) hlast hbeats
          (by simp [hleft, hmore, hphase]) (by simp [hleft]) (by simp) (by simp)
      exact ⟨t, hrun, hbusy, hrest, by simpa using hlog, by simpa [xorFold_cons] using hpending⟩

/-- Settles O20: the first beat opens the collection with fold 0, and each data beat adds its element to the fold. -/
theorem finduniqueFoldsItsSequence : Obligations.FinduniqueFoldsItsSequence := by
  refine ⟨fun a b c => decode_beatOf c b a .findunique, fun _ => rfl,
    fun n s hn => exec_findunique_of_ne_zero (Nat.ne_of_gt hn) s, ?_⟩
  intro edges rest s hne hbeats hphase hacc hremaining hoffered hscript
  exact hacc ▸ runEdges_collect_xorFold edges rest s hne hbeats hphase hremaining hoffered hscript

end Sys2Proof.Machine

namespace Sys2Proof.Machine

/-! ### TOBINARY's string (48_binary_renderer.md R260) -/

theorem tobinary_answers_string (w : Word) : Answers (.tobinary w) (.ok 0 (binaryString w)) :=
  answers_of_commandResponse nofun rfl

theorem binaryString_zero : binaryString 0 = [digit false] := by
  rw [binaryString, (highestBitIndex_eq_none 0).mpr rfl]

section
variable {w : Word} {p : Nat} (h : highestBitIndex w = some p)
include h

theorem binaryString_length : (binaryString w).length = p + 1 := by
  rw [binaryString_eq h, List.length_map, List.length_reverse, List.length_range]

/-- The first character is the highest set bit, and each further one is the next bit down. -/
theorem getElem?_binaryString {k : Nat} (hk : k ≤ p) : (binaryString w)[k]? = some (digit (bitAt w (p - k))) := by
  have hlt : k < (List.range (p + 1)).length := by
    rw [List.length_range]
    exact Nat.lt_succ_of_le hk
  rw [binaryString_eq h, List.getElem?_map, List.getElem?_reverse hlt, List.length_range, Nat.add_sub_cancel,
    List.getElem?_range (Nat.lt_succ_of_le (Nat.sub_le p k)), Option.map_some]

end

/-- Settles O21: the string is the digits down from the highest set bit, or the one digit of the zero word. -/
theorem tobinaryWritesTheMinimalDigits : Obligations.TobinaryWritesTheMinimalDigits := by
  refine ⟨fun a b c => decode_beatOf c b a .tobinary, fun w s =>
    ⟨binaryString w, tobinary_answers_string w s, fun hw => hw ▸ binaryString_zero, fun hw => ?_⟩⟩
  obtain ⟨p, hp⟩ := exists_highestBitIndex hw
  exact ⟨p, highestBitIndex_lt hp, getLsbD_highestBitIndex hp, fun k => getLsbD_of_highestBitIndex_lt hp,
    binaryString_length hp, fun k => getElem?_binaryString hp⟩

/-! ### The two rendering algorithms (R262) -/

theorem digitsFromLowest_zero (rounds : Nat) : digitsFromLowest rounds 0 = [] := by
  cases rounds <;> rfl

theorem ne_zero_of_highestBitIndex {v : Word} {p : Nat} (h : highestBitIndex v = some p) : v ≠ 0 := fun hv =>
  Option.some_ne_none p (h.symm.trans ((highestBitIndex_eq_none v).mpr hv))

theorem shr_one_of_highestBitIndex_zero {v : Word} (h : highestBitIndex v = some 0) : shr v 1 = 0 :=
  BitVec.eq_of_getLsbD_eq fun i _ =>
    ((bitAt_shr_one v i).trans (getLsbD_of_highestBitIndex_lt h (Nat.succ_pos i))).trans BitVec.getLsbD_zero.symm

theorem highestBitIndex_shr_one {v : Word} {p : Nat} (h : highestBitIndex v = some (p + 1)) :
    highestBitIndex (shr v 1) = some p :=
  (highestBitIndex_eq_some _ _).mpr ⟨(bitAt_shr_one v p).trans (getLsbD_highestBitIndex h), fun k hk =>
    (bitAt_shr_one v k).trans (getLsbD_of_highestBitIndex_lt h (Nat.succ_lt_succ hk))⟩

/-- A round on a word with a set bit takes its lowest digit. -/
theorem digitsFromLowest_succ {v : Word} {p : Nat} (h : highestBitIndex v = some p) (rounds : Nat) :
    digitsFromLowest (rounds + 1) v = digit (bitAt v 0) :: digitsFromLowest rounds (shr v 1) :=
  if_neg (ne_zero_of_highestBitIndex h)

/-- The rounds collect one digit for each position up to the highest set bit, which moves down one in each round. -/
theorem digitsFromLowest_eq {rounds p : Nat} {v : Word} (h : highestBitIndex v = some p) (hrounds : p < rounds) :
    digitsFromLowest rounds v = (List.range (p + 1)).map (fun i => digit (bitAt v i)) := by
  induction p generalizing rounds v with
  | zero =>
    obtain ⟨rounds, rfl⟩ := Nat.exists_eq_add_one_of_ne_zero (Nat.ne_zero_of_lt hrounds)
    rw [digitsFromLowest_succ h, shr_one_of_highestBitIndex_zero h, digitsFromLowest_zero]
    rfl
  | succ p ih =>
    obtain ⟨rounds, rfl⟩ := Nat.exists_eq_add_one_of_ne_zero (Nat.ne_zero_of_lt hrounds)
    rw [digitsFromLowest_succ h, ih (highestBitIndex_shr_one h) (Nat.lt_of_succ_lt_succ hrounds),
      List.range_succ_eq_map (n := p + 1), List.map_cons, List.map_map]
    simp only [bitAt_shr_one]
    rfl

theorem binaryStringByShifting_eq {w : Word} {p : Nat} (h : highestBitIndex w = some p) :
    binaryStringByShifting w = binaryString w := by
  rw [binaryStringByShifting, digitsFromLowest_eq h (highestBitIndex_lt h), binaryString_eq h, List.map_reverse]

/-- The digits above the highest set bit are the leading zeros, and the highest set bit is no zero. -/
theorem dropWhile_digits_eq {w : Word} {p : Nat} (h : highestBitIndex w = some p) (above : Nat) :
    ((List.range (p + 1 + above)).reverse.map (fun i => digit (bitAt w i))).dropWhile (fun c => c == digit false) =
      (List.range (p + 1)).reverse.map (fun i => digit (bitAt w i)) := by
  induction above with
  | zero =>
    have htop : bitAt w p = true := getLsbD_highestBitIndex h
    rw [Nat.add_zero, List.range_succ, List.reverse_append, List.reverse_singleton, List.singleton_append,
      List.map_cons, htop]
    exact List.dropWhile_cons_of_neg (by decide)
  | succ above ih =>
    have hclear : bitAt w (p + 1 + above) = false := getLsbD_of_highestBitIndex_lt h (by omega)
    rw [← Nat.add_assoc, List.range_succ, List.reverse_append, List.reverse_singleton, List.singleton_append,
      List.map_cons, hclear, List.dropWhile_cons_of_pos (by decide), ih]

theorem binaryStringByScan_eq {w : Word} {p : Nat} (h : highestBitIndex w = some p) :
    binaryStringByScan w = binaryString w := by
  obtain ⟨above, habove⟩ := Nat.exists_eq_add_of_le (Nat.succ_le_of_lt (highestBitIndex_lt h))
  rw [binaryStringByScan, positions, Config.W, habove, dropWhile_digits_eq h, binaryString_eq h]

/-- Settles O30: both algorithms list the digits up to the highest set bit, whose index is one less than their number. -/
theorem binaryRendererAlgorithmsAgree : Obligations.BinaryRendererAlgorithmsAgree := by
  intro w hw
  obtain ⟨p, hp⟩ := exists_highestBitIndex hw
  rw [binaryStringByShifting_eq hp, binaryStringByScan_eq hp, binaryString_length hp]
  exact ⟨tobinary_answers_string w, tobinary_answers_string w, highestbit_answers_index hp⟩

end Sys2Proof.Machine

namespace Sys2Proof.Machine

/-! ### Which command ends in which error (60_exceptions.md R301 to R306) -/

/-- The command ends in error `e`: what R301, R302 and R305 say of its operands. -/
def FailsWith (e : ErrorStatus) : Instr → Prop
  | .singlebit index => e = .indexOutOfRange ∧ 32 ≤ index
  | .runmask count => e = .invalidRunLength ∧ 32 < count
  | .rangemask lowIndex highIndex =>
    e = .indexOutOfRange ∧ (32 ≤ lowIndex ∨ 32 ≤ highIndex ∨ highIndex < lowIndex)
  | .getbit _ index => e = .indexOutOfRange ∧ 32 ≤ index
  | .setbit _ index => e = .indexOutOfRange ∧ 32 ≤ index
  | .clearbit _ index => e = .indexOutOfRange ∧ 32 ≤ index
  | .togglebit _ index => e = .indexOutOfRange ∧ 32 ≤ index
  | .popcount _ => False
  | .highestbit word => e = .emptyInput ∧ word = 0
  | .rotl _ _ => False
  | .rotr _ _ => False
  | .countruns _ runLength => e = .invalidRunLength ∧ (runLength = 0 ∨ 32 < runLength)
  | .swapbits _ indexA indexB => e = .indexOutOfRange ∧ (32 ≤ indexA ∨ 32 ≤ indexB)
  | .removebit _ index => e = .indexOutOfRange ∧ 32 ≤ index
  | .findunique length => e = .emptyInput ∧ length = 0
  | .tobinary _ => False

theorem ite_err_eq_err_iff {c : Prop} [Decidable c] {w : Word} {str : List Ascii} {f e : ErrorStatus} :
    (if c then .err f else .ok w str) = Response.err e ↔ e = f ∧ c := by
  split <;> simp_all [eq_comm]

/-- A response behind one index check is an error exactly when the index is out of range (R301). -/
theorem ite_indexInRange_eq_err_iff {index : Nat} {w : Word} {str : List Ascii} {f e : ErrorStatus} :
    (if indexInRange index then .ok w str else .err f) = Response.err e ↔ e = f ∧ 32 ≤ index := by
  rw [← ite_not, ite_err_eq_err_iff, indexInRange_eq, decide_eq_true_eq, Nat.not_lt]

theorem rangemaskResponse_eq_err_iff {lo hi : Nat} {e : ErrorStatus} :
    rangemaskResponse lo hi = .err e ↔ e = .indexOutOfRange ∧ (32 ≤ lo ∨ 32 ≤ hi ∨ hi < lo) := by
  rw [rangemaskResponse, ← ite_or, ite_err_eq_err_iff]
  simp [or_assoc]

theorem swapbitsResponse_eq_err_iff {word : Word} {i j : Nat} {e : ErrorStatus} :
    swapbitsResponse word i j = .err e ↔ e = .indexOutOfRange ∧ (32 ≤ i ∨ 32 ≤ j) := by
  simp [swapbitsResponse, ite_err_eq_err_iff]

theorem highestbitResponse_eq_err_iff {word : Word} {e : ErrorStatus} :
    highestbitResponse word = .err e ↔ e = .emptyInput ∧ word = 0 := by
  rw [← highestBitIndex_eq_none, highestbitResponse]
  cases highestBitIndex word <;> simp [eq_comm]

/-- A command's response is an error exactly when the rules say so, whatever its sequence. -/
theorem commandResponse_eq_err_iff (i : Instr) (elements : List Word) (e : ErrorStatus) :
    commandResponse i elements = .err e ↔ FailsWith e i := by
  cases i with
  | popcount | rotl | rotr | tobinary => exact ⟨nofun, nofun⟩
  | singlebit | getbit | setbit | clearbit | togglebit | removebit => exact ite_indexInRange_eq_err_iff
  | runmask | countruns | findunique => exact ite_err_eq_err_iff
  | rangemask => exact rangemaskResponse_eq_err_iff
  | swapbits => exact swapbitsResponse_eq_err_iff
  | highestbit => exact highestbitResponse_eq_err_iff

/-- A command fails only with a status that R306 lists for it. -/
theorem FailsWith.mem_possibleErrors {e : ErrorStatus} {i : Instr} (h : FailsWith e i) : e ∈ possibleErrors i := by
  cases i with
  | popcount | rotl | rotr | tobinary => exact h.elim
  | _ => exact List.mem_singleton.mpr h.1

/-- Settles O33: a response is OK or an error, and the error of a legal command is one it can fail with. -/
theorem commandsEndOnlyWithListedStatuses : Obligations.CommandsEndOnlyWithListedStatuses := by
  refine ⟨fun r i hdecode => ?_, fun r why hdecode => by rw [execRequest, hdecode]⟩
  have hexec : execRequest r = commandResponse i (r.data.map operandA) := by rw [execRequest, hdecode]
  rw [hexec]
  cases hr : commandResponse i (r.data.map operandA) with
  | ok w str => exact .inl ⟨w, str, rfl⟩
  | err e => exact .inr ⟨e, ((commandResponse_eq_err_iff i _ e).mp hr).mem_possibleErrors, rfl⟩

/-- A command always goes on, and has an error pending exactly when it fails with it: on the condition `P`. -/
theorem exec_pending_err_iff {e : ErrorStatus} {i : Instr} {P : Prop} (hP : FailsWith e i ↔ P) (s : State) :
    ∃ t, exec i s = .next t ∧ ((t.phase = .busy ∧ t.pending = .err e) ↔ P) := by
  rw [← hP]
  obtain ⟨n, rfl, hn, hopens⟩ | ⟨hanswers, -⟩ := exec_cases i s
  · exact ⟨_, hopens, nofun, fun hfails => absurd hfails.2 hn⟩
  · exact ⟨_, hanswers, (and_iff_right rfl).trans (commandResponse_eq_err_iff i [] e)⟩

/-- Settles O34: the commands that can fail with `IndexOutOfRange` are the eight of R301. -/
theorem indexOutOfRangeExactly : Obligations.IndexOutOfRangeExactly := fun i s =>
  exec_pending_err_iff (e := .indexOutOfRange) (by cases i <;> simp [FailsWith]) s

/-- Settles O35: the commands that can fail with `InvalidRunLength` are COUNTRUNS and RUNMASK. -/
theorem invalidRunLengthExactly : Obligations.InvalidRunLengthExactly := fun i s =>
  exec_pending_err_iff (e := .invalidRunLength) (by cases i <;> simp [FailsWith]) s

/-- Settles O36: the commands that can fail with `EmptyInput` are HIGHESTBIT and FINDUNIQUE. -/
theorem emptyInputExactly : Obligations.EmptyInputExactly := fun i s =>
  exec_pending_err_iff (e := .emptyInput) (by cases i <;> simp [FailsWith]) s

/-! ### A first beat that carries no command (R304) -/

theorem not_failsWith_illegalCommand (i : Instr) : ¬ FailsWith .illegalCommand i := fun h => by
  have hmem := h.mem_possibleErrors
  cases i <;> simp [possibleErrors] at hmem

/-- R304's condition on the raw bits is that the command word is not legal. -/
theorem illegalBits_iff (x : Beat) :
    (x.extractLsb' 5 27 ≠ 0 ∨ x.extractLsb' 0 5 = 0 ∨ 0x11 ≤ (x.extractLsb' 0 5).toNat) ↔
      legal (cmdOf x) = false := by
  have hzero : x.extractLsb' 0 5 = 0 ↔ (x.extractLsb' 0 5).toNat = 0 := BitVec.toNat_inj.symm
  rw [← Bool.not_eq_true, legal_cmdOf_iff, hzero, Classical.not_and_iff_not_or_not]
  refine or_congr_right ?_
  omega

theorem acceptCommand_of_decode_error {b : Beat} {why : Rejection} (h : decode b = .error why) (s : State) :
    acceptCommand b s = .next { beginTransaction b s with pending := .err .illegalCommand, phase := .busy } := by
  rw [acceptCommand, h]
  rfl

/-- A first beat has `IllegalCommand` pending exactly when its command word is not legal: a command never fails so. -/
theorem acceptCommand_illegalCommand_iff (b : Beat) (s : State) :
    (∃ t, acceptCommand b s = .next t ∧ t.phase = .busy ∧ t.pending = .err .illegalCommand) ↔
      legal (cmdOf b) = false := by
  rw [← decode_error_iff]
  cases hdecode : decode b with
  | error why => exact iff_of_true ⟨_, acceptCommand_of_decode_error hdecode s, rfl, rfl⟩ ⟨why, rfl⟩
  | ok i =>
    refine iff_of_false ?_ nofun
    rintro ⟨t, haccept, hpending⟩
    obtain ⟨u, hexec, hfails⟩ := exec_pending_err_iff (iff_false_intro (not_failsWith_illegalCommand i)) (beginTransaction b s)
    rw [acceptCommand_of_decode hdecode, hexec, Host.Outcome.next.injEq] at haccept
    exact hfails.mp (haccept ▸ hpending)

/-- Settles O37: the idle unit takes the beat, and is answered so exactly when its bits are no legal command word. -/
theorem illegalCommandExactly : Obligations.IllegalCommandExactly := by
  intro s e rest hscript hrst hvalid hphase hoffered
  rw [illegalBits_iff, step_eq_acceptCommand hscript hrst hvalid hphase hoffered]
  exact ⟨acceptCommand_illegalCommand_iff _ _, transactionLength_of_illegal⟩

/-! ### The status of a response (R300, R303) -/

theorem responseFields_status (r : Response) : (responseFields r).status = statusCode r := by
  cases r <;> rfl

theorem errorCode_toNat_pos_le (e : ErrorStatus) : 0 < (errorCode e).toNat ∧ (errorCode e).toNat ≤ 4 := by
  cases e <;> decide

theorem statusCode_toNat_le (r : Response) : (statusCode r).toNat ≤ 4 := by
  cases r with
  | ok => exact Nat.zero_le 4
  | err e => exact (errorCode_toNat_pos_le e).2

/-- Settles O38: the status shown is the pending response's code. -/
theorem statusCodesOfTheOutcomes : Obligations.StatusCodesOfTheOutcomes := by
  intro s hphase
  rw [rspFields_of_respond hphase, responseFields_status]
  refine ⟨fun w str h => ?_, fun h => ?_, fun h => ?_, fun h => ?_, fun h => ?_, statusCode_toNat_le _⟩ <;>
  · rw [h]
    rfl

/-- Settles O39: an error's code is not 0, its other fields are zeros, and a host reads the error back. -/
theorem errorResponsesCarryNoValue : Obligations.ErrorResponsesCarryNoValue := by
  intro s e hphase hpending
  have hstatus : errorCode e ≠ 0 := fun h => absurd (errorCode_toNat_pos_le e).1 (by rw [h]; decide)
  rw [rspFields_of_respond hphase, hpending]
  exact ⟨hstatus, rfl, rfl, rfl, readResponse_responseFields_err e, rfl⟩

end Sys2Proof.Machine

namespace Sys2Proof.Machine

/-! ### Reset edges (70_reset_and_hazards.md R340 to R343) -/

/-- Reset wins over every transfer, whatever the state (R341). -/
theorem step_of_reset {s : State} {e : Edge} {rest : List Edge} (hscript : s.script = e :: rest) (hrst : e.rst = true) :
    step s = .next (resetEdge { s with script := rest, draw := s.draw + 1 }) := by
  rw [step_cons hscript, clockEdge, if_pos hrst]

/-- Settles O45: the reset edge is taken before anything else is looked at. -/
theorem resetEdgeWinsFromEveryState : Obligations.ResetEdgeWinsFromEveryState := fun _ _ _ hscript hrst =>
  ⟨rfl, _, step_of_reset hscript hrst, rfl, rfl, rfl, rfl, rfl, rfl⟩

theorem acceptCommand_next (b : Beat) (s : State) : ∃ t, acceptCommand b s = .next t := by
  obtain ⟨n, -, -, hopens⟩ | ⟨-, hanswers⟩ := acceptCommand_cases b s
  · exact ⟨_, hopens⟩
  · exact ⟨_, hanswers⟩

/-- Settles O46: the reset leaves an idle unit to which nothing is owed, so the next edge's beat is transferred. -/
theorem resetAbandonsTheTransaction : Obligations.ResetAbandonsTheTransaction := by
  intro s e f rest hscript hrst hfrst hvalid
  let t := resetEdge { s with script := f :: rest, draw := s.draw + 1 }
  have hstep : step t = acceptCommand f.reqData { t with script := rest, draw := t.draw + 1 } :=
    step_eq_acceptCommand rfl hfrst hvalid rfl (.inl rfl)
  obtain ⟨v, hv⟩ := acceptCommand_next f.reqData { t with script := rest, draw := t.draw + 1 }
  refine ⟨t, _, v, step_of_reset hscript hrst, rfl, rfl, rfl, rfl, rfl, rfl, hstep.trans hv, rfl,
    fun i hdecode => ?command, fun why hdecode => ?illegal⟩
  case command => exact (acceptCommand_of_decode hdecode _).symm.trans hv
  case illegal => exact Host.Outcome.next.inj (hv.symm.trans (acceptCommand_of_decode_error hdecode _))

/-! ### A response that waits, and a beat that waits (R346, R348) -/

theorem reqReady_of_pending {s : State} (hphase : s.phase = .busy ∨ s.phase = .respond) : s.reqReady false = false := by
  obtain hphase | hphase := hphase <;> simp [State.reqReady, hphase]

section
variable {s : State} {e : Edge} {rest : List Edge} (hscript : s.script = e :: rest) (hrst : e.rst = false)
  (hhold : ∀ b, s.offered = some b → e.reqValid = true ∧ e.reqData = b)
include hscript hrst hhold

theorem step_of_busy (hphase : s.phase = .busy) :
    step s = .next (noteOffer e (if e.latencyDone
      then internalStep { s with script := rest, draw := s.draw + 1 }
      else { s with script := rest, draw := s.draw + 1 })) :=
  (step_eq_channelEdge hscript hrst ((keepsHold_iff e s).mpr hhold)).trans (channelEdge_of_busy e hphase)

theorem step_of_respond (hphase : s.phase = .respond) :
    step s = .next (noteOffer e (if e.rspReady
      then deliver { s with script := rest, draw := s.draw + 1 }
      else { s with script := rest, draw := s.draw + 1 })) :=
  (step_eq_channelEdge hscript hrst ((keepsHold_iff e s).mpr hhold)).trans (channelEdge_of_respond e hphase)

end

/-- Settles O47: a response that is not taken stays pending in RESPOND, where no beat is accepted. -/
theorem responseHeldUntilTaken : Obligations.ResponseHeldUntilTaken := by
  intro s e rest hscript hrst hready hhold hvalid
  have hphase : s.phase = .respond := (rspValid_iff s).mp hvalid
  have hstep := step_of_respond hscript hrst hhold hphase
  rw [hready, if_neg Bool.false_ne_true] at hstep
  have hfields := rspFields_of_respond (s := noteOffer e { s with script := rest, draw := s.draw + 1 }) hphase
  exact ⟨_, hstep, hvalid, hfields.trans (rspFields_of_respond hphase).symm, rfl, reqReady_of_pending (.inr hphase)⟩

/-- Settles O48: both phases note the offer beside their own event, and only the response's transfer leaves them for
IDLE. -/
theorem offeredBeatWaitsWhileBusy : Obligations.OfferedBeatWaitsWhileBusy := by
  intro s e rest hscript hrst hvalid hdata hphase
  have hhold : ∀ b, s.offered = some b → e.reqValid = true ∧ e.reqData = b := fun b hb => ⟨hvalid, hdata b hb⟩
  refine ⟨reqReady_of_pending hphase, ?_⟩
  obtain hbusy | hrespond := hphase
  · refine ⟨_, step_of_busy hscript hrst hhold hbusy, ?_⟩
    cases e.latencyDone <;> simp [hvalid, hbusy]
  · refine ⟨_, step_of_respond hscript hrst hhold hrespond, ?_⟩
    cases e.rspReady <;> simp [hvalid, hrespond]

/-! ### A collecting unit without a beat (R347) -/

theorem step_collect_no_beat {s : State} {e : Edge} {rest : List Edge} (hphase : s.phase = .collect)
    (hoffered : s.offered = none) (hscript : s.script = e :: rest) (hrst : e.rst = false) (hvalid : e.reqValid = false) :
    step s = .next { s with script := rest, draw := s.draw + 1 } :=
  (step_of_nothing_owed hscript hrst hoffered).trans (channelEdge_of_no_beat (.inr hphase) hvalid)

/-- Settles O49: each edge without a beat only uses up its inputs. -/
theorem finduniqueWaitsForItsBeats : Obligations.FinduniqueWaitsForItsBeats := by
  intro edges rest s hquiet hphase hoffered hscript
  induction edges generalizing s with
  | nil =>
    subst hscript
    rfl
  | cons e edges ih =>
    obtain ⟨⟨hrst, hvalid⟩, hquiet⟩ := List.forall_mem_cons.mp hquiet
    have hstep := step_collect_no_beat hphase hoffered hscript hrst hvalid
    have hrun := ih { s with script := edges ++ rest, draw := s.draw + 1 } hquiet hphase hoffered rfl
    rw [Nat.add_assoc, Nat.add_comm 1] at hrun
    exact (runEdges_succ _ hstep).trans hrun

/-! ### When a step has no meaning (R345; 93 S6) -/

theorem keepsHold_eq_false_iff (e : Edge) (s : State) :
    keepsHold e s = false ↔ ∃ b, s.offered = some b ∧ (e.reqValid = false ∨ e.reqData ≠ b) := by
  rw [← Bool.not_eq_true, keepsHold_iff]
  simp only [not_forall, exists_prop, Classical.not_and_iff_not_or_not, Bool.not_eq_true, ne_eq]

/-- The only way an edge has no meaning is a broken hold, and an edge never faults. -/
theorem clockEdge_next_or_refused (e : Edge) (s : State) :
    ((e.rst = true ∨ keepsHold e s = true) ∧ ∃ t, clockEdge e s = .next t) ∨
    (e.rst = false ∧ keepsHold e s = false ∧ clockEdge e s = .refused .requestHoldBroken) := by
  obtain ⟨hrst, hreset⟩ | hrefused | ⟨-, hhold, hchannel⟩ := clockEdge_cases e s
  · exact .inl ⟨.inl hrst, _, hreset⟩
  · exact .inr hrefused
  · obtain ⟨t, ht⟩ := channelEdge_next e s
    exact .inl ⟨.inr hhold, t, hchannel.trans ht⟩

theorem acceptCommand_keeps_script {b : Beat} {s t : State} (h : acceptCommand b s = .next t) : t.script = s.script := by
  obtain ⟨n, -, -, hc⟩ | ⟨-, hc⟩ := acceptCommand_cases b s <;>
  · rw [hc] at h
    cases h
    rfl

/-- A step uses up the inputs of its edge and no others. -/
theorem step_script {s t : State} (h : step s = .next t) : t.script = s.script.tail := by
  obtain rfl | ⟨-, h⟩ := step_next_cases h
  · rfl
  obtain ⟨-, haccept⟩ | ⟨-, rfl⟩ | ⟨-, rfl⟩ | ⟨-, rfl⟩ | ⟨-, -, rfl⟩ | ⟨-, rfl⟩ := channelEdge_next_cases h
  · exact acceptCommand_keeps_script (s := advance s) haccept
  · exact collectBeat_script _ _
  all_goals rfl

/-- The quiet edge offers the beat that is owed. -/
theorem keepsHold_quietEdge (s : State) : keepsHold (quietEdge s) s = true :=
  (keepsHold_iff _ s).mpr fun b hb => by simp [quietEdge, hb]

/-- With the host's inputs used up, the next edge is the quiet one. -/
theorem step_eq_channelEdge_quietEdge {s : State} (h : s.script = []) :
    step s = channelEdge (quietEdge s) { s with draw := s.draw + 1 } := by
  have hhold : keepsHold (quietEdge s) { s with draw := s.draw + 1 } = true := keepsHold_quietEdge s
  rw [step_nil h, clockEdge, hhold]
  rfl

/-- Settles O50: an edge goes on unless its hold is broken, and the quiet edge breaks none, takes no response and ends the
BUSY phase. -/
theorem stepStopsOnlyOnABrokenHold : Obligations.StepStopsOnlyOnABrokenHold := by
  refine ⟨fun s e rest hscript => ?anyEdge, fun s hscript => ?quiet⟩
  case anyEdge =>
    have hbroken : (∃ b, s.offered = some b ∧ (e.reqValid = false ∨ e.reqData ≠ b)) ↔
        keepsHold e { s with script := rest, draw := s.draw + 1 } = false :=
      (keepsHold_eq_false_iff e s).symm
    rw [hbroken, step_cons hscript]
    obtain ⟨hgoes, t, ht⟩ | ⟨hrst, hhold, hrefused⟩ :=
      clockEdge_next_or_refused e { s with script := rest, draw := s.draw + 1 }
    · rw [ht]
      refine ⟨nofun, iff_of_false nofun ?_, nofun⟩
      rintro ⟨hrst, hhold⟩
      simp [hrst, hhold] at hgoes
    · rw [hrefused]
      exact ⟨nofun, iff_of_true ⟨_, rfl⟩ ⟨hrst, hhold⟩, fun _ h => (Host.Outcome.refused.inj h).symm⟩
  case quiet =>
    have hstep := step_eq_channelEdge_quietEdge hscript
    obtain ⟨t, ht⟩ := channelEdge_next (quietEdge s) { s with draw := s.draw + 1 }
    have hnext := hstep.trans ht
    refine ⟨t, hnext, ?script, ?log, fun hbusy => ?busy, fun hrespond => ?respond⟩
    case script => rw [step_script hnext, hscript, List.tail_nil]
    case log =>
      obtain hlog | ⟨-, -, -, hready, -⟩ := onlyAcceptedResponsesAreDelivered s t hnext
      · exact hlog
      · simp [currentEdge, hscript, quietEdge] at hready
    case busy =>
      cases ht.symm.trans (channelEdge_of_busy (quietEdge s) hbusy)
      rfl
    case respond =>
      cases ht.symm.trans (channelEdge_of_respond (quietEdge s) hrespond)
      exact ⟨hrespond, rfl⟩

end Sys2Proof.Machine
